-- ==== Sys2Proof/Word.lean ====
section
/-! DEFINITION. The word types of FBRW: what the spec treats as bits, each at the one width the spec gives it. -/

namespace Sys2Proof

/-- A byte: 8 bits, unsigned 0 to 255 (00_scope R8). -/
abbrev Byte := BitVec 8

/-- A 16-bit quantity: coordinates, dimensions, `WIDTH`, `HEIGHT`, `RESP.VAL` (`DIM_BITS`, R7, R81, R84). -/
abbrev Half := BitVec 16

/-- The 32-bit pixel memory offset `D.OFF` (R81). -/
abbrev Offset := BitVec 32

/-- A command descriptor, a little-endian integer of 128 bits (R80). -/
abbrev Desc := BitVec 128

/-- Eighteen bytes as one little-endian integer, byte `i` at bits `8i+7:8i`: the file header (R102) and the
footer signature (R99). -/
abbrev Bytes18 := BitVec 144

end Sys2Proof
end

