-- ==== Sys2Proof/Syntax.lean ====
section
/-! DEFINITION. The command set as syntax: one constructor per row of spec/opcode_table.json, the twelve commands of
30_encoding R86 and the two file-header rows of R93 and R102. -/

namespace Sys2Proof

/-- Bytes per pixel: the three legal values of `BPP` (10_state R23). -/
inductive Bpp where
  /-- GRAYSCALE = 1. -/
  | grayscale
  /-- RGB = 3. -/
  | rgb
  /-- RGBA = 4. -/
  | rgba
  deriving DecidableEq, Repr, Inhabited

/-- The fields of the 18-byte FileHeader but for `datatypecode`, which selects the table's row (30_encoding R92). -/
structure FileHeader where
  idlength        : Byte
  colormaptype    : Byte
  colormaporigin  : Half
  colormaplength  : Half
  colormapdepth   : Byte
  xOrigin         : Half
  yOrigin         : Half
  width           : Half
  height          : Half
  bitsperpixel    : Byte
  imagedescriptor : Byte
  deriving DecidableEq, Repr

/-- A row of the opcode table with its operands. Fields of the descriptor that a command does not use are not decoded
(30_encoding R83), so they are no operand here. -/
inductive Instr where
  /-- CONSTRUCT, `A` = w, `B` = h, `M` = bytes per pixel (R121). -/
  | construct (w h : Half) (m : Byte)
  /-- GET, `A` = x, `B` = y (R122). -/
  | get (x y : Half)
  /-- SET, `A` = x, `B` = y, `M` = the colour's count, `C0` to `C3` (R123). -/
  | set (x y : Half) (n c0 c1 c2 c3 : Byte)
  /-- FLIPH (R150). -/
  | fliph
  /-- FLIPV (R151). -/
  | flipv
  /-- RAWRD, `OFF` (R124). -/
  | rawrd (off : Offset)
  /-- RAWWR, `OFF`, `C0` = the byte (R125). -/
  | rawwr (off : Offset) (b : Byte)
  /-- QW (R126). -/
  | qw
  /-- QH (R127). -/
  | qh
  /-- QBPP (R128). -/
  | qbpp
  /-- CWRITE, `M` = the vertical flip flag (R170). -/
  | cwrite (vf : Byte)
  /-- CREAD (R190). -/
  | cread
  /-- FILEHDR.RAW_TRUECOLOR: a file header with `datatypecode` 2 (R93, R102). -/
  | fileHdrRawTruecolor (f : FileHeader)
  /-- FILEHDR.RAW_GRAYSCALE: a file header with `datatypecode` 3 (R93, R102). -/
  | fileHdrRawGrayscale (f : FileHeader)
  deriving DecidableEq, Repr

end Sys2Proof
end

