-- ==== Sys2Proof/WellFormed.lean ====
section
/-! DEFINITION. Which instructions carry legal operands: the `D.M` values of 30_encoding R87 and the accepted header
values of R101. An ill-formed instruction still runs: it raises the error the spec names (R120, R195). -/

namespace Sys2Proof

/-- The legal counts of bytes per pixel as an operand byte, compared whole (R82, R87). -/
def legalCount (m : Byte) : Bool := m == 1 || m == 3 || m == 4

/-- A header dimension from 1 to 32767 in two's complement (R194, R195). -/
def legalDim (d : Half) : Bool := decide (0 < d.toInt)

/-- A header CREAD accepts, whatever its data type (R101, R195). -/
def FileHeader.wf (f : FileHeader) : Bool :=
  legalDim f.width && legalDim f.height && (f.bitsperpixel == 8 || f.bitsperpixel == 24 || f.bitsperpixel == 32)

/-- Operand legality, the second stage of decoding (R120), one arm per constructor. -/
def Instr.wf : Instr → Bool
  | .construct _ _ m => legalCount m
  | .get _ _ => true
  | .set _ _ n _ _ _ _ => legalCount n
  | .fliph => true
  | .flipv => true
  | .rawrd _ => true
  | .rawwr _ _ => true
  | .qw => true
  | .qh => true
  | .qbpp => true
  | .cwrite vf => vf == 0 || vf == 1
  | .cread => true
  | .fileHdrRawTruecolor f => f.wf
  | .fileHdrRawGrayscale f => f.wf

end Sys2Proof
end

