-- ==== Sys2Proof/Decode.lean ====
section
/-! DEFINITION. Decoding of command descriptors (30_encoding R80 to R88) and file headers (R92, R93, R102), the
encoder written from the same tables, and the byte-order helpers. Decoding is total: any bytes give an instruction or
an error by name (R87). -/

namespace Sys2Proof

/-- The `n` low bytes of `w`, lowest first (little-endian: R54, R80, R96). -/
def leBytes : Nat → Nat → List Byte
  | 0, _ => []
  | n + 1, w => BitVec.ofNat 8 w :: leBytes n (w / 256)

/-- The number whose bytes, lowest first, are the given ones (R54, R80). -/
def leNat : List Byte → Nat
  | [] => 0
  | b :: bs => b.toNat + 256 * leNat bs

/-- Why bytes are no instruction. -/
inductive DecodeError where
  /-- `D.OP` is none of the twelve opcodes: the command raises `IllegalCommand` (R87, R240). -/
  | illegalCommand (op : Nat)
  /-- `datatypecode` has no row: CREAD raises `UnsupportedDataType` after validation (R93, R197). -/
  | unsupportedDataType (code : Nat)
  /-- Neither the 16 bytes of a descriptor (R88) nor the 18 of a file header (R92). -/
  | wrongLength (n : Nat)
  deriving DecidableEq, Repr

/-! ## Format D (R81) -/

/-- `D.OP`, bits 7:0. -/
def descOp (d : Desc) : Byte := d.extractLsb' 0 8
/-- `D.M`, bits 15:8. -/
def descM (d : Desc) : Byte := d.extractLsb' 8 8
/-- `D.A`, bits 47:32. -/
def descA (d : Desc) : Half := d.extractLsb' 32 16
/-- `D.B`, bits 63:48. -/
def descB (d : Desc) : Half := d.extractLsb' 48 16
/-- `D.C0`, bits 71:64. -/
def descC0 (d : Desc) : Byte := d.extractLsb' 64 8
/-- `D.C1`, bits 79:72. -/
def descC1 (d : Desc) : Byte := d.extractLsb' 72 8
/-- `D.C2`, bits 87:80. -/
def descC2 (d : Desc) : Byte := d.extractLsb' 80 8
/-- `D.C3`, bits 95:88. -/
def descC3 (d : Desc) : Byte := d.extractLsb' 88 8
/-- `D.OFF`, bits 127:96. -/
def descOff (d : Desc) : Offset := d.extractLsb' 96 32

/-- The command a descriptor names: `D.OP` alone selects it (R86), and each command takes the fields R86 lists. -/
def decodeDescriptor (d : Desc) : Except DecodeError Instr :=
  match (descOp d).toNat with
  | 0x01 => .ok (.construct (descA d) (descB d) (descM d))
  | 0x02 => .ok (.get (descA d) (descB d))
  | 0x03 => .ok (.set (descA d) (descB d) (descM d) (descC0 d) (descC1 d) (descC2 d) (descC3 d))
  | 0x04 => .ok .fliph
  | 0x05 => .ok .flipv
  | 0x06 => .ok (.rawrd (descOff d))
  | 0x07 => .ok (.rawwr (descOff d) (descC0 d))
  | 0x08 => .ok .qw
  | 0x09 => .ok .qh
  | 0x0A => .ok .qbpp
  | 0x10 => .ok (.cwrite (descM d))
  | 0x11 => .ok .cread
  | op => .error (.illegalCommand op)

/-! ## The file header (R92) -/

/-- `datatypecode`, byte 2. -/
def headerType (h : Bytes18) : Byte := h.extractLsb' 16 8

/-- The other fields of a header at the offsets of R92. -/
def headerFields (h : Bytes18) : FileHeader where
  idlength := h.extractLsb' 0 8
  colormaptype := h.extractLsb' 8 8
  colormaporigin := h.extractLsb' 24 16
  colormaplength := h.extractLsb' 40 16
  colormapdepth := h.extractLsb' 56 8
  xOrigin := h.extractLsb' 64 16
  yOrigin := h.extractLsb' 80 16
  width := h.extractLsb' 96 16
  height := h.extractLsb' 112 16
  bitsperpixel := h.extractLsb' 128 8
  imagedescriptor := h.extractLsb' 136 8

/-- The table's row a header stands for (R93, R102). -/
def decodeHeader (h : Bytes18) : Except DecodeError Instr :=
  match (headerType h).toNat with
  | 2 => .ok (.fileHdrRawTruecolor (headerFields h))
  | 3 => .ok (.fileHdrRawGrayscale (headerFields h))
  | code => .error (.unsupportedDataType code)

/-- Decoding of any bytes: 16 are a descriptor (R88), 18 a file header (R92). -/
def decode (bs : List Byte) : Except DecodeError Instr :=
  if bs.length = 16 then decodeDescriptor (BitVec.ofNat 128 (leNat bs))
  else if bs.length = 18 then decodeHeader (BitVec.ofNat 144 (leNat bs))
  else .error (.wrongLength bs.length)

/-! ## The encoder -/

/-- A descriptor from its fields, `RSV` 0 (R81, R89). -/
def descriptor (op m : Byte) (a b : Half) (c0 c1 c2 c3 : Byte) (off : Offset) : Desc :=
  off ++ c3 ++ c2 ++ c1 ++ c0 ++ b ++ a ++ (0 : BitVec 16) ++ m ++ op

/-- The 16 bytes of a descriptor, byte `i` being `D[8i+7:8i]` (R80). -/
def descriptorBytes (d : Desc) : List Byte := leBytes 16 d.toNat

/-- A header from its `datatypecode` and its other fields (R92). -/
def headerWord (code : Byte) (f : FileHeader) : Bytes18 :=
  f.imagedescriptor ++ f.bitsperpixel ++ f.height ++ f.width ++ f.yOrigin ++ f.xOrigin ++ f.colormapdepth
    ++ f.colormaplength ++ f.colormaporigin ++ code ++ f.colormaptype ++ f.idlength

/-- The 18 bytes of a header, `HDR[i]` being the byte at offset `i` (R92, R100). -/
def headerBytes (h : Bytes18) : List Byte := leBytes 18 h.toNat

/-- The bytes of an instruction, unused descriptor fields 0 (R89), one arm per constructor. -/
def encode : Instr → List Byte
  | .construct w h m => descriptorBytes (descriptor 0x01 m w h 0 0 0 0 0)
  | .get x y => descriptorBytes (descriptor 0x02 0 x y 0 0 0 0 0)
  | .set x y n c0 c1 c2 c3 => descriptorBytes (descriptor 0x03 n x y c0 c1 c2 c3 0)
  | .fliph => descriptorBytes (descriptor 0x04 0 0 0 0 0 0 0 0)
  | .flipv => descriptorBytes (descriptor 0x05 0 0 0 0 0 0 0 0)
  | .rawrd off => descriptorBytes (descriptor 0x06 0 0 0 0 0 0 0 off)
  | .rawwr off b => descriptorBytes (descriptor 0x07 0 0 0 b 0 0 0 off)
  | .qw => descriptorBytes (descriptor 0x08 0 0 0 0 0 0 0 0)
  | .qh => descriptorBytes (descriptor 0x09 0 0 0 0 0 0 0 0)
  | .qbpp => descriptorBytes (descriptor 0x0A 0 0 0 0 0 0 0 0)
  | .cwrite vf => descriptorBytes (descriptor 0x10 vf 0 0 0 0 0 0 0)
  | .cread => descriptorBytes (descriptor 0x11 0 0 0 0 0 0 0 0)
  | .fileHdrRawTruecolor f => headerBytes (headerWord 2 f)
  | .fileHdrRawGrayscale f => headerBytes (headerWord 3 f)

/-- The bits of a descriptor the command with this opcode uses, `D.OP` among them (R86), for the law of R83. -/
def usedBits (op : Byte) : Desc :=
  match op.toNat with
  | 0x01 => descriptor 0xFF 0xFF 0xFFFF 0xFFFF 0 0 0 0 0
  | 0x02 => descriptor 0xFF 0 0xFFFF 0xFFFF 0 0 0 0 0
  | 0x03 => descriptor 0xFF 0xFF 0xFFFF 0xFFFF 0xFF 0xFF 0xFF 0xFF 0
  | 0x06 => descriptor 0xFF 0 0 0 0 0 0 0 0xFFFFFFFF
  | 0x07 => descriptor 0xFF 0 0 0 0xFF 0 0 0 0xFFFFFFFF
  | 0x10 => descriptor 0xFF 0xFF 0 0 0 0 0 0 0
  | _ => descriptor 0xFF 0 0 0 0 0 0 0 0

/-! ## Words as the opcode table numbers them -/

/-- Whether a word of the opcode table with this many bits is a file header: the table gives the FILEHDR rows 144 bits
(R102), of which the masked ones end at bit 23, and every command 128, of which the masked ones end at bit 7. -/
def tableWordIsHeader (nbits w : Nat) : Bool :=
  decide (128 < nbits) ||
    (decide (nbits = 24) && match decodeDescriptor (BitVec.ofNat 128 w) with
      | .ok _ => false
      | .error _ => true)

/-- The bytes that a word of the opcode table stands for, bits above `nbits` zero. -/
def tableBytes (nbits w : Nat) : List Byte :=
  if tableWordIsHeader nbits (w % 2 ^ nbits) then leBytes 18 (w % 2 ^ nbits) else leBytes 16 (w % 2 ^ nbits)

/-- The instruction the decoder reads from a word numbered as the opcode table numbers it, or none. -/
def decodeTableWord (nbits w : Nat) : Option Instr :=
  match decode (tableBytes nbits w) with
  | .ok i => some i
  | .error _ => none

end Sys2Proof
end

