-- ==== Sys2Proof/Config.lean ====
section
/-! DEFINITION. What 00_scope R6 and R7 fix, the defaults of the parameters a model takes as arguments, the open
parameter `RESET_BPP`, and the free values of what the spec leaves unspecified. -/

namespace Sys2Proof

/-- Header length in bytes (R6). -/
def Config.headerLen : Nat := 18

/-- `DIM_MAX`, the largest width or height (R7, R21). -/
def Config.dimMax : Nat := 32767

/-- What a byte of pixel memory that nothing has stored reads as: CONSTRUCT and step 5 of CREAD fill with zero
(R121, R196). -/
def Config.unlistedByte : Byte := 0

/-- The default of `PIXMEM_BYTES`: unbounded (R7, R53). -/
def Config.defaultPixmemBytes : Option Nat := none

/-- The default of `FOOTER_SIG`, the eighteen bytes of R99 (D15, G1). PRESUMED by the spec from general knowledge
(log 15), unsafe for a claim about those bytes. -/
def Config.defaultFooterSig : Bytes18 :=
  BitVec.ofNat 144 (leNat [0x54, 0x52, 0x55, 0x45, 0x56, 0x49, 0x53, 0x49, 0x4F, 0x4E, 0x2D, 0x58, 0x46, 0x49, 0x4C,
    0x45, 0x2E, 0x00])

/-- `RESET_BPP`, `BPP` after reset: an open parameter, one of 1, 3, 4 (R261, D10). No body: a claim holds for all
three (log 4), safe. -/
opaque Config.resetBpp : Bpp

/-- The content of `POS` after a codec command, unspecified (R32, U18): a free value for the draw's number (log 7). -/
opaque Config.freePos : Nat → Nat

/-- The content of `HDR` after a codec command, unspecified (R33, U18): a free value (log 7). -/
opaque Config.freeHdr : Nat → Bytes18

/-- Byte `i` of `LINEBUF` after FLIPV, unspecified (R34, U18): a free value for the draw's number and `i` (log 7). -/
opaque Config.freeLineByte : Nat → Nat → Byte

end Sys2Proof
end

