-- ==== Sys2Proof/Machine/State.lean ====
section
/-! DEFINITION. The state of FBRW as plain data (10_state R20 to R37), the inputs and outputs of a step that a model
must hold (20_memory R56 to R60, log 2), and the reset state (70 R261). -/

namespace Sys2Proof.Machine

/-- Pixel memory content: (offset, byte) pairs in one canonical form, offsets rising, no byte equal to what an
unlisted offset reads as (log 5). -/
abbrev Memory := List Host.Cell

/-- The canonical form. -/
abbrev Memory.wf (m : Memory) : Prop :=
  m.Pairwise (fun a b => a.1 < b.1) ∧ ∀ c ∈ m, c.2 ≠ Config.unlistedByte

/-- A buffer: the descriptor registers and the bytes of `PIX` (R21 to R23, R51), also the shape of `NB` (R35). The
array's length is `WIDTH * HEIGHT * BPP` (R25), not stored. -/
structure Buffer where
  width  : Half
  height : Half
  bpp    : Bpp
  pix    : Memory
  deriving DecidableEq, Repr

/-- `RESP`, the 64-bit response, by its fields, which cover all of its bits (R29, R84). -/
structure Resp where
  err : Byte := 0
  n   : Byte := 0
  val : Half := 0
  c0  : Byte := 0
  c1  : Byte := 0
  c2  : Byte := 0
  c3  : Byte := 0
  deriving DecidableEq, Repr

/-- The names of the error codes (60_exceptions R231). -/
inductive ErrCode where
  | streamOpenFailure
  | headerReadFailure
  | headerWriteFailure
  | invalidHeaderValues
  | unsupportedDataType
  | payloadTruncated
  | payloadWriteFailure
  | footerWriteFailure
  | illegalCommand
  | illegalOperand
  | rawRange
  | capacityExceeded
  deriving DecidableEq, Repr

/-- `PHASE`, the sequencer state, names as R31 gives them. One step runs a command through its phases; a step ends in
`idle`, or in a phase that waits for a stream (`rHeader`, `rPayload`, `wHeader`, `wPayload`, `wFooter`). -/
inductive Phase where
  | idle
  | wOpen
  | wHeader
  | wPayload
  | wFooter
  | rOpen
  | rHeader
  | rValidate
  | rAlloc
  | rDispatch
  | rPayload
  | rOrientV
  | rOrientH
  | rCommit
  | exec
  deriving DecidableEq, Repr

/-- A source stream (R56), or one that answers with some bytes and then never again (R267, log 9). -/
inductive Source where
  /-- The stream cannot be opened. -/
  | absent
  /-- A finite byte sequence, complete. -/
  | stream (bytes : List Byte)
  /-- These bytes are answered, a request for more never is. -/
  | stalling (bytes : List Byte)
  deriving DecidableEq, Repr

/-- A sink (R58), or one that takes some bytes and then never answers (R267, log 9). -/
inductive Sink where
  /-- `open_ok = false`. -/
  | closed
  /-- `open_ok = true` with this `cap`, none for unbounded. -/
  | takes (cap : Option Nat)
  /-- This many bytes are taken, a write of more never is answered. -/
  | stalling (taken : Nat)
  deriving DecidableEq, Repr

/-- What `SrcRead` answers (R57). -/
inductive ReadResult where
  | complete (bytes : List Byte)
  | short
  /-- The stream has not answered (R267). -/
  | waits
  deriving DecidableEq, Repr

/-- How a `DstWrite` ends (R59). -/
inductive WriteResult where
  | complete
  | failed
  /-- The sink has not answered (R267). -/
  | waits
  deriving DecidableEq, Repr

/-- One command as the host issues it: the descriptor with the streams it comes with (R270). -/
structure Request where
  desc   : Desc
  source : Source
  sink   : Sink
  deriving DecidableEq, Repr

/-- The parameters of R7 a model takes as arguments, fixed for the machine: no step writes them (log 3). -/
structure Params where
  /-- `PIXMEM_BYTES`, none for unbounded. -/
  pixmemBytes : Option Nat
  /-- `FOOTER_SIG`. -/
  footerSig   : Bytes18
  deriving DecidableEq, Repr

/-- What stops the machine: nothing. Every failure the spec describes is a completed command with `RESP.ERR` set
(R230), a next state; no rule reaches outside pixel memory (R51), log 18. Safe: no step raises a fault, and there is
none to raise. -/
inductive Fault where
  deriving DecidableEq, Repr

/-- Why an instruction has no meaning in the model. -/
inductive Refusal where
  /-- Raised by an arm of exec whose instruction has no meaning yet (none is left). Safe: nothing is claimed of it. -/
  | notModelled (mnemonic : String)
  deriving DecidableEq, Repr

/-- The state: R37's table, then the inputs and outputs of a step (log 2), the parameters (log 3) and the counter of
free values (log 7). -/
structure State where
  /-- `WIDTH`, `HEIGHT`, `BPP`, `PIX` (R21 to R23, R51). -/
  buf      : Buffer
  /-- `RESP` (R29). -/
  resp     : Resp
  /-- `PHASE` (R31). -/
  phase    : Phase
  /-- `POS`, which never wraps (R32). -/
  pos      : Nat
  /-- `HDR` (R33). -/
  hdr      : Bytes18
  /-- `LINEBUF` (R34); between a change of `WIDTH*BPP` and the next FLIPV it keeps its earlier length (log 22). -/
  lineBuf  : List Byte
  /-- `NB`, absent outside a CREAD (R35). -/
  nb       : Option Buffer
  /-- `SRC_OPEN` (R36). -/
  srcOpen  : Bool
  /-- `DST_OPEN` (R36). -/
  dstOpen  : Bool
  /-- The requests the host has issued and the port has not accepted, oldest first (R264). -/
  port     : List Request
  /-- The source stream of the command in progress (R56). -/
  source   : Source
  /-- The sink of the command in progress (R58). -/
  sink     : Sink
  /-- `OUT` of the CWRITE in progress, absent when no sink is open (R58). -/
  out      : Option (List Byte)
  /-- The `OUT` sequences produced so far, oldest first (R273). -/
  outs     : List (List Byte)
  /-- The external reset input (R260). -/
  resetPin : Bool
  /-- The parameters. -/
  params   : Params
  /-- How many free values have been drawn. -/
  draws    : Nat
  deriving DecidableEq, Repr

/-- What the host's port and the machine do next: run an instruction, or go to a state without one. -/
inductive Fetched where
  | run (i : Instr) (s : State)
  | settle (s : State)
  deriving DecidableEq, Repr

/-- The parameters at the spec's defaults (R7). -/
def Params.default : Params where
  pixmemBytes := Config.defaultPixmemBytes
  footerSig := Config.defaultFooterSig

/-- The state after reset for given parameters and `RESET_BPP` (R261). `POS`, `HDR`, `LINEBUF` are unspecified there:
DESIGN CHOICE zero, zero and no bytes (log 6), unsafe for a claim about them, which no command can observe. -/
def State.resetWith (p : Params) (b : Bpp) : State where
  buf := { width := 0, height := 0, bpp := b, pix := [] }
  resp := {}
  phase := .idle
  pos := 0
  hdr := 0
  lineBuf := []
  nb := none
  srcOpen := false
  dstOpen := false
  port := []
  source := .absent
  sink := .closed
  out := none
  outs := []
  resetPin := false
  params := p
  draws := 0

/-- The machine right after reset (R261), parameters at their defaults. -/
def State.reset : State := State.resetWith Params.default Config.resetBpp

end Sys2Proof.Machine
end

