-- ==== Sys2Proof/Machine/Operands.lean ====
section
/-! DEFINITION. Operand forms: the counts and dimensions of 30_encoding R82 and R87, the header values of 43 R195,
pixel addressing and the range predicate of 20_memory R52 and 40 R120. -/

namespace Sys2Proof.Machine

/-- A `BPP` value as a number (R23). -/
def bppBytes : Bpp → Nat
  | .grayscale => 1
  | .rgb => 3
  | .rgba => 4

/-- An operand byte as bytes per pixel, compared whole: only 1, 3, 4 are legal (R82, R87). -/
def bppOfByte (m : Byte) : Option Bpp :=
  match m.toNat with
  | 1 => some .grayscale
  | 3 => some .rgb
  | 4 => some .rgba
  | _ => none

/-- `bitsperpixel` as bytes per pixel by exact division: only 8, 24, 32 are legal (R94, R195, C3). -/
def bppOfBits (bits : Byte) : Option Bpp :=
  match bits.toNat with
  | 8 => some .grayscale
  | 24 => some .rgb
  | 32 => some .rgba
  | _ => none

/-- A construct dimension as it is stored: a negative one as 0, another as given (`clamp_each`: R121, D8). -/
def clampDim (d : Half) : Half := if d.toInt < 0 then 0 else d

/-- `LEN = WIDTH * HEIGHT * BPP`, exact (R25, R129). -/
def bufLen (b : Buffer) : Nat := b.width.toNat * b.height.toNat * bppBytes b.bpp

/-- The length of a row in bytes, `WIDTH * BPP` (R13, R151). -/
def rowLen (b : Buffer) : Nat := b.width.toNat * bppBytes b.bpp

/-- `inrange(x, y)`, on integers, without wrap-around (R120). -/
abbrev inRange (b : Buffer) (x y : Half) : Prop :=
  0 ≤ x.toInt ∧ x.toInt < b.width.toNat ∧ 0 ≤ y.toInt ∧ y.toInt < b.height.toNat

/-- `off` of a pixel by column and row (R52). -/
def pixelOff (b : Buffer) (x y : Nat) : Nat := (y * b.width.toNat + x) * bppBytes b.bpp

/-- `off(x, y)` from the operands of GET and SET (R122, R123, R131). -/
def operandOff (b : Buffer) (x y : Half) : Nat := pixelOff b x.toInt.toNat y.toInt.toNat

/-- Whether a buffer of `n` bytes fits `PIXMEM_BYTES` (R53). -/
def fits (p : Params) (n : Nat) : Bool :=
  match p.pixmemBytes with
  | none => true
  | some cap => decide (n ≤ cap)

/-- The empty buffer's shape a header asks for, its bytes zero, or none where validation fails (R193 to R196). -/
def headerBuffer (h : Bytes18) : Option Buffer :=
  let f := headerFields h
  if 0 < f.width.toInt ∧ 0 < f.height.toInt then
    match bppOfBits f.bitsperpixel with
    | some b => some { width := f.width, height := f.height, bpp := b, pix := [] }
    | none => none
  else none

/-- Bit `0x20` of `imagedescriptor`: the first stored row is the top row (R95). -/
def topOrigin (h : Bytes18) : Bool := (headerFields h).imagedescriptor.getLsbD 5

/-- Bit `0x10` of `imagedescriptor`: the first stored pixel of a row is the rightmost (R95). -/
def rightOrigin (h : Bytes18) : Bool := (headerFields h).imagedescriptor.getLsbD 4

end Sys2Proof.Machine
end

