-- ==== Sys2Proof/Machine/Flags.lean ====
section
/-! DEFINITION. `RESP`, the only status FBRW has (10_state R29, R30): the codes of `RESP.ERR` (60_exceptions R231), the
responses, and `RESP` as the 64-bit word the host reads (30_encoding R84). -/

namespace Sys2Proof.Machine

/-- The code of each error name (R231). -/
def errCode : ErrCode → Byte
  | .streamOpenFailure => 0x01
  | .headerReadFailure => 0x02
  | .headerWriteFailure => 0x03
  | .invalidHeaderValues => 0x04
  | .unsupportedDataType => 0x05
  | .payloadTruncated => 0x06
  | .payloadWriteFailure => 0x07
  | .footerWriteFailure => 0x08
  | .illegalCommand => 0x80
  | .illegalOperand => 0x81
  | .rawRange => 0x82
  | .capacityExceeded => 0x83

/-- The response of a success that returns nothing: all fields 0 (R85). -/
def respOk : Resp := {}

/-- The response of a failure: the code, every other field 0 (R10, R85). -/
def respError (e : ErrCode) : Resp := { err := errCode e }

/-- The response of a success that returns a number (R85, R124, R126 to R128). -/
def respVal (v : Half) : Resp := { val := v }

/-- The response of GET: the count and the colour's channels, those not given 0 (R122). -/
def respColour (b : Bpp) (c : List Byte) : Resp where
  n := BitVec.ofNat 8 (bppBytes b)
  c0 := c.getD 0 0
  c1 := c.getD 1 0
  c2 := c.getD 2 0
  c3 := c.getD 3 0

/-- `RESP` as a little-endian integer of 64 bits (R84). -/
def respWord (r : Resp) : BitVec 64 :=
  r.c3 ++ r.c2 ++ r.c1 ++ r.c0 ++ r.val ++ r.n ++ r.err

/-- The eight bytes of `RESP` (R84, R103). -/
def respBytes (r : Resp) : List Byte := leBytes 8 (respWord r).toNat

end Sys2Proof.Machine
end

