-- ==== Sys2Proof/Machine/Ops.lean ====
section
/-! DEFINITION. The operations meanings share: pixel memory (20_memory R51, 00_scope R9), ending a command (`complete`,
`raise`: R10), the stream primitives (R57, R59) and the command port (R264). -/

namespace Sys2Proof.Machine

/-! ## Pixel memory -/

/-- The byte at an offset. -/
def Memory.readByte : Memory → Nat → Byte
  | [], _ => Config.unlistedByte
  | (a, b) :: m, k => if a = k then b else readByte m k

/-- Store a byte at an offset, keeping the canonical form. -/
def Memory.writeByte : Memory → Nat → Byte → Memory
  | [], k, v => if v = Config.unlistedByte then [] else [(k, v)]
  | (a, b) :: m, k, v =>
    if k < a then (if v = Config.unlistedByte then (a, b) :: m else (k, v) :: (a, b) :: m)
    else if k = a then (if v = Config.unlistedByte then m else (k, v) :: m)
    else (a, b) :: writeByte m k v

/-- `MemRead(addr, n)`, lowest offset first (R9). -/
def Memory.readBytes (m : Memory) : Nat → Nat → List Byte
  | _, 0 => []
  | k, n + 1 => Memory.readByte m k :: readBytes m (k + 1) n

/-- `MemWrite(addr, n, v)`, `v[0]` to the lowest offset (R9). -/
def Memory.writeBytes : Memory → Nat → List Byte → Memory
  | m, _, [] => m
  | m, k, v :: vs => writeBytes (Memory.writeByte m k v) (k + 1) vs

/-- A byte sequence as memory content from an offset up. -/
def Memory.ofBytes : Nat → List Byte → Memory
  | _, [] => []
  | k, v :: vs => if v = Config.unlistedByte then ofBytes (k + 1) vs else (k, v) :: ofBytes (k + 1) vs

/-- Move the byte of every offset `a` to offset `f a`. -/
def Memory.remap (f : Nat → Nat) : Memory → Memory
  | [] => []
  | (a, b) :: m => Memory.writeByte (remap f m) (f a) b

/-! ## Ending a command -/

/-- The end of every command (R10, R29, R35, R36): `RESP` overwritten, `PHASE` to `IDLE`, streams released, `NB`
discarded, the bytes the sink took handed over. What a stream left in `POS` and `HDR` is unspecified (R32, R33). -/
def finish (r : Resp) (s : State) : State :=
  { s with
    resp := r
    phase := .idle
    srcOpen := false
    dstOpen := false
    nb := none
    out := none
    outs := s.outs ++ s.out.toList
    pos := if s.srcOpen || s.dstOpen then Config.freePos s.draws else s.pos
    hdr := if s.srcOpen || s.dstOpen then Config.freeHdr s.draws else s.hdr
    draws := if s.srcOpen || s.dstOpen then s.draws + 1 else s.draws }

/-- `complete(n, val, c)` (R10). -/
def complete (r : Resp) (s : State) : State := finish r s

/-- `raise <Name>`: FBRW's exception entry (R10, R230, R247). There is no handler, nothing is saved, and there is no
return (R248). -/
def raise (e : ErrCode) (s : State) : State := finish (respError e) s

/-! ## Streams -/

/-- `SrcRead(pos, n)` (R57). On a stream that is absent, where the spec defines no read, it is short (log 20). -/
def srcRead : Source → Nat → Nat → ReadResult
  | .absent, _, _ => .short
  | .stream bytes, pos, n => if pos + n ≤ bytes.length then .complete ((bytes.drop pos).take n) else .short
  | .stalling bytes, pos, n => if pos + n ≤ bytes.length then .complete ((bytes.drop pos).take n) else .waits

/-- How many bytes a source has to give, where a read waits for more (log 19). -/
def srcLength : Source → Nat
  | .absent => 0
  | .stream bytes => bytes.length
  | .stalling bytes => bytes.length

/-- Append bytes the sink took to `OUT` (R59). -/
def sinkTake (v : List Byte) (s : State) : State := { s with out := s.out.map (· ++ v) }

/-- `DstWrite(v)` for the part `v` of the file that starts at file offset `start` (R59). A write that has waited goes
on with the bytes not yet taken. -/
def dstWrite (start : Nat) (v : List Byte) (s : State) : WriteResult × State :=
  let v := v.drop (s.pos - start)
  match s.sink with
  | .closed => (.failed, s)
  | .takes none => (.complete, { sinkTake v s with pos := s.pos + v.length })
  | .takes (some cap) =>
    if s.pos + v.length ≤ cap then (.complete, { sinkTake v s with pos := s.pos + v.length })
    else (.failed, sinkTake (v.take (cap - s.pos)) s)
  | .stalling n =>
    if s.pos + v.length ≤ n then (.complete, { sinkTake v s with pos := s.pos + v.length })
    else (.waits, { sinkTake (v.take (n - s.pos)) s with pos := s.pos + (n - s.pos) })

/-! ## The command port and reset -/

/-- The port takes a request: it leaves the queue, and its streams are the command's (R264, R270). -/
def accept (r : Request) (rest : List Request) (s : State) : State :=
  { s with port := rest, source := r.source, sink := r.sink }

/-- The reset event (R260, R261), which also ends a wait (R267). The host's own data stay: the requests not yet
accepted and what sinks have taken (log 10). -/
def resetEvent (s : State) : State :=
  { State.resetWith s.params Config.resetBpp with
    port := s.port
    outs := s.outs ++ s.out.toList
    draws := s.draws }

end Sys2Proof.Machine
end

