-- ==== Sys2Proof/Machine/Buffer.lean ====
section
/-! DEFINITION. The pixel buffer commands CONSTRUCT, GET, SET, RAWRD, RAWWR, QW, QH, QBPP (40_buffer_ops). -/

namespace Sys2Proof.Machine

/-- CONSTRUCT (R121). DESIGN CHOICE: `LINEBUF` keeps the bytes it holds, whatever the new row length (log 22); unsafe
for a claim about its length, which nothing can observe (R34). -/
def execConstruct (w h : Half) (m : Byte) (s : State) : Host.Outcome State Fault Refusal :=
  .next (match bppOfByte m with
    | none => raise .illegalOperand s
    | some b =>
      let nb : Buffer := { width := clampDim w, height := clampDim h, bpp := b, pix := [] }
      if fits s.params (bufLen nb) then complete respOk { s with buf := nb } else raise .capacityExceeded s)

/-- GET (R122): the zero colour out of range. -/
def execGet (x y : Half) (s : State) : Host.Outcome State Fault Refusal :=
  .next (complete
    (respColour s.buf.bpp
      (if inRange s.buf x y then Memory.readBytes s.buf.pix (operandOff s.buf x y) (bppBytes s.buf.bpp) else []))
    s)

/-- The bytes SET stores: `min(BPP, n)` channels of the colour (R123). -/
def setBytes (b n : Bpp) (c0 c1 c2 c3 : Byte) : List Byte :=
  [c0, c1, c2, c3].take (min (bppBytes b) (bppBytes n))

/-- SET (R123): nothing out of range. -/
def execSet (x y : Half) (n c0 c1 c2 c3 : Byte) (s : State) : Host.Outcome State Fault Refusal :=
  .next (match bppOfByte n with
    | none => raise .illegalOperand s
    | some nb =>
      complete respOk
        (if inRange s.buf x y then
          { s with buf := { s.buf with
              pix := Memory.writeBytes s.buf.pix (operandOff s.buf x y) (setBytes s.buf.bpp nb c0 c1 c2 c3) } }
        else s))

/-- RAWRD (R124). -/
def execRawrd (off : Offset) (s : State) : Host.Outcome State Fault Refusal :=
  .next (if off.toNat < bufLen s.buf then
      complete (respVal ((Memory.readByte s.buf.pix off.toNat).setWidth 16)) s
    else raise .rawRange s)

/-- RAWWR (R125). -/
def execRawwr (off : Offset) (b : Byte) (s : State) : Host.Outcome State Fault Refusal :=
  .next (if off.toNat < bufLen s.buf then
      complete respOk { s with buf := { s.buf with pix := Memory.writeByte s.buf.pix off.toNat b } }
    else raise .rawRange s)

/-- QW (R126). -/
def execQw (s : State) : Host.Outcome State Fault Refusal :=
  .next (complete (respVal s.buf.width) s)

/-- QH (R127). -/
def execQh (s : State) : Host.Outcome State Fault Refusal :=
  .next (complete (respVal s.buf.height) s)

/-- QBPP (R128). -/
def execQbpp (s : State) : Host.Outcome State Fault Refusal :=
  .next (complete (respVal (BitVec.ofNat 16 (bppBytes s.buf.bpp))) s)

end Sys2Proof.Machine
end

