-- ==== Sys2Proof/Machine/Flip.lean ====
section
/-! DEFINITION. The mirror engines FLIPH and FLIPV (41_flip_ops) in the functional form that R153 admits, which CREAD
uses too (43 R199), and the in-place procedures of R150 and R151 beside them, for the law that they agree. -/

namespace Sys2Proof.Machine

/-- Where the left-right mirror takes the byte of offset `k`: column `i` to `WIDTH - 1 - i`, row and channel kept
(R150). -/
def mirrorColumn (b : Buffer) (k : Nat) : Nat :=
  let p := bppBytes b.bpp
  let r := rowLen b
  if k < bufLen b then k / r * r + (b.width.toNat - 1 - k % r / p) * p + k % r % p else k

/-- Where the top-bottom mirror takes the byte of offset `k`: row `j` to `HEIGHT - 1 - j` (R151). -/
def mirrorRow (b : Buffer) (k : Nat) : Nat :=
  let r := rowLen b
  if k < bufLen b then (b.height.toNat - 1 - k / r) * r + k % r else k

/-- `fliph` on a buffer (R150, R190). -/
def flipH (b : Buffer) : Buffer := { b with pix := Memory.remap (mirrorColumn b) b.pix }

/-- `flipv` on a buffer (R151, R190). -/
def flipV (b : Buffer) : Buffer := { b with pix := Memory.remap (mirrorRow b) b.pix }

/-- FLIPH (R150). -/
def execFliph (s : State) : Host.Outcome State Fault Refusal :=
  .next (complete respOk { s with buf := flipH s.buf })

/-- FLIPV (R151). What it leaves in `LINEBUF`, one row of bytes, is unspecified (R34, log 14). -/
def execFlipv (s : State) : Host.Outcome State Fault Refusal :=
  .next (complete respOk
    { s with
      buf := flipV s.buf
      lineBuf := (List.range (rowLen s.buf)).map (Config.freeLineByte s.draws)
      draws := s.draws + 1 })

/-! ## The in-place procedures -/

/-- Exchange the `n` bytes at `a` with the `n` bytes at `b`, through a temporary (R150, R151). -/
def swapBytes (a b n : Nat) (m : Memory) : Memory :=
  Memory.writeBytes (Memory.writeBytes m a (Memory.readBytes m b n)) b (Memory.readBytes m a n)

/-- `for i from 0 to n - 1: f i`. -/
def loopUpTo (f : Nat → Memory → Memory) : Nat → Memory → Memory
  | 0, m => m
  | n + 1, m => f n (loopUpTo f n m)

/-- The procedure of R150. -/
def flipHInPlace (b : Buffer) : Memory :=
  loopUpTo (fun j => loopUpTo (fun i =>
      swapBytes ((j * b.width.toNat + i) * bppBytes b.bpp)
        ((j * b.width.toNat + (b.width.toNat - 1 - i)) * bppBytes b.bpp) (bppBytes b.bpp))
    (b.width.toNat / 2)) b.height.toNat b.pix

/-- The procedure of R151. -/
def flipVInPlace (b : Buffer) : Memory :=
  loopUpTo (fun j => swapBytes (j * rowLen b) ((b.height.toNat - 1 - j) * rowLen b) (rowLen b))
    (b.height.toNat / 2) b.pix

end Sys2Proof.Machine
end

