-- ==== Sys2Proof/Machine/CodecRead.lean ====
section
/-! DEFINITION. The header parser and payload loader CREAD (43_codec_read), one function per phase of R202, and the two
FILEHDR rows of the opcode table: a fetched header run from `R_VALIDATE` on (R93, R102, log 11). -/

namespace Sys2Proof.Machine

/-- `R_COMMIT`: the new buffer replaces the old one (R200). DESIGN CHOICE: `LINEBUF` is kept (log 14, log 22), unsafe
for a claim about it, which nothing can observe. -/
def creadCommit (s : State) : State :=
  match s.nb with
  | none => s
  | some nb => complete respOk { s with buf := nb }

/-- `R_ORIENT_H`: mirrored left to right when bit `0x10` is set (R199, C1). -/
def creadOrientH (s : State) : State :=
  creadCommit { s with nb := s.nb.map fun nb => if rightOrigin s.hdr then flipH nb else nb }

/-- `R_ORIENT_V`: mirrored top to bottom when bit `0x20` is clear (R199). -/
def creadOrientV (s : State) : State :=
  creadOrientH { s with nb := s.nb.map fun nb => if topOrigin s.hdr then nb else flipV nb }

/-- `R_PAYLOAD` (R198). -/
def creadPayload (s : State) : State :=
  match s.nb with
  | none => s
  | some nb =>
    match srcRead s.source Config.headerLen (bufLen nb) with
    | .short => raise .payloadTruncated s
    | .waits => { s with phase := .rPayload, pos := srcLength s.source }
    | .complete bytes =>
      creadOrientV { s with nb := some { nb with pix := Memory.ofBytes 0 bytes }, pos := Config.headerLen + bufLen nb }

/-- `R_DISPATCH` (R197). -/
def creadDispatch (s : State) : State :=
  if headerType s.hdr = 2 ∨ headerType s.hdr = 3 then creadPayload s else raise .unsupportedDataType s

/-- `R_ALLOC` (R196). -/
def creadAlloc (nb : Buffer) (s : State) : State :=
  if fits s.params (bufLen nb) then creadDispatch { s with nb := some nb } else raise .capacityExceeded s

/-- `R_VALIDATE` (R193 to R195), on the header in `HDR`. -/
def creadValidate (s : State) : State :=
  match headerBuffer s.hdr with
  | none => raise .invalidHeaderValues s
  | some nb => creadAlloc nb s

/-- A header arrives: `HDR` and `POS` written, validation next (R190). -/
def creadHeaderArrived (h : Bytes18) (s : State) : State :=
  creadValidate { s with hdr := h, pos := Config.headerLen }

/-- `R_HEADER` (R192). -/
def creadHeader (s : State) : State :=
  match srcRead s.source 0 Config.headerLen with
  | .short => raise .headerReadFailure s
  | .waits => { s with phase := .rHeader, pos := srcLength s.source }
  | .complete bytes => creadHeaderArrived (BitVec.ofNat 144 (leNat bytes)) s

/-- `R_OPEN` (R191). -/
def creadOpen (s : State) : State :=
  match s.source with
  | .absent => raise .streamOpenFailure s
  | _ => creadHeader { s with srcOpen := true, pos := 0 }

/-- CREAD (R190). -/
def execCread (s : State) : Host.Outcome State Fault Refusal := .next (creadOpen s)

/-- FILEHDR.RAW_TRUECOLOR: a header with `datatypecode` 2 (R93, R193 to R200). -/
def execFileHdrRawTruecolor (f : FileHeader) (s : State) : Host.Outcome State Fault Refusal :=
  .next (creadHeaderArrived (headerWord 2 f) s)

/-- FILEHDR.RAW_GRAYSCALE: a header with `datatypecode` 3, loaded as the other one is (R93, R197). -/
def execFileHdrRawGrayscale (f : FileHeader) (s : State) : Host.Outcome State Fault Refusal :=
  .next (creadHeaderArrived (headerWord 3 f) s)

end Sys2Proof.Machine
end

