-- ==== Sys2Proof/Machine/CodecWrite.lean ====
section
/-! DEFINITION. The serialiser CWRITE (42_codec_write), one function per phase of R170. -/

namespace Sys2Proof.Machine

/-- `datatypecode` as CWRITE emits it: 3 for one byte per pixel, else 2 (R93, R171). -/
def writtenType : Bpp → Byte
  | .grayscale => 3
  | .rgb => 2
  | .rgba => 2

/-- `header(W, H, P, vf)` (R171). -/
def writtenHeader (b : Buffer) (vf : Byte) : Bytes18 :=
  headerWord (writtenType b.bpp)
    { idlength := 0, colormaptype := 0, colormaporigin := 0, colormaplength := 0, colormapdepth := 0,
      xOrigin := 0, yOrigin := 0, width := b.width, height := b.height,
      bitsperpixel := BitVec.ofNat 8 (8 * bppBytes b.bpp),
      imagedescriptor := if vf = 1 then 0x00 else 0x20 }

/-- The FileFooter: two zero references of 4 bytes and `FOOTER_SIG` (R99). -/
def footerBytes (p : Params) : List Byte := leBytes 4 0 ++ leBytes 4 0 ++ leBytes 18 p.footerSig.toNat

/-- The pixel bytes as the file holds them (R98, R172). -/
def payloadBytes (b : Buffer) : List Byte := Memory.readBytes b.pix 0 (bufLen b)

/-- `W_FOOTER` (R170). -/
def cwriteFooter (s : State) : State :=
  match dstWrite (Config.headerLen + bufLen s.buf) (footerBytes s.params) s with
  | (.complete, t) => complete respOk t
  | (.failed, t) => raise .footerWriteFailure t
  | (.waits, t) => { t with phase := .wFooter }

/-- `W_PAYLOAD` (R170). -/
def cwritePayload (s : State) : State :=
  match dstWrite Config.headerLen (payloadBytes s.buf) s with
  | (.complete, t) => cwriteFooter t
  | (.failed, t) => raise .payloadWriteFailure t
  | (.waits, t) => { t with phase := .wPayload }

/-- `W_HEADER` (R170). -/
def cwriteHeader (s : State) : State :=
  match dstWrite 0 (headerBytes s.hdr) s with
  | (.complete, t) => cwritePayload t
  | (.failed, t) => raise .headerWriteFailure t
  | (.waits, t) => { t with phase := .wHeader }

/-- `W_OPEN` (R170). -/
def cwriteOpen (vf : Byte) (s : State) : State :=
  match s.sink with
  | .closed => raise .streamOpenFailure s
  | _ => cwriteHeader { s with dstOpen := true, out := some [], pos := 0, hdr := writtenHeader s.buf vf }

/-- CWRITE (R170). -/
def execCwrite (vf : Byte) (s : State) : Host.Outcome State Fault Refusal :=
  .next (if vf = 0 ∨ vf = 1 then cwriteOpen vf s else raise .illegalOperand s)

end Sys2Proof.Machine
end

