-- ==== Sys2Proof/Machine/Dispatch.lean ====
section
/-! DEFINITION. One arm per constructor of Instr, each a direct call of the instruction's meaning. -/

namespace Sys2Proof.Machine

def exec (i : Instr) (s : State) : Host.Outcome State Fault Refusal :=
  match i with
  | .construct w h m => Sys2Proof.Machine.execConstruct w h m s
  | .get x y => Sys2Proof.Machine.execGet x y s
  | .set x y n c0 c1 c2 c3 => Sys2Proof.Machine.execSet x y n c0 c1 c2 c3 s
  | .fliph => Sys2Proof.Machine.execFliph s
  | .flipv => Sys2Proof.Machine.execFlipv s
  | .rawrd off => Sys2Proof.Machine.execRawrd off s
  | .rawwr off b => Sys2Proof.Machine.execRawwr off b s
  | .qw => Sys2Proof.Machine.execQw s
  | .qh => Sys2Proof.Machine.execQh s
  | .qbpp => Sys2Proof.Machine.execQbpp s
  | .cwrite vf => Sys2Proof.Machine.execCwrite vf s
  | .cread => Sys2Proof.Machine.execCread s
  | .fileHdrRawTruecolor f => Sys2Proof.Machine.execFileHdrRawTruecolor f s
  | .fileHdrRawGrayscale f => Sys2Proof.Machine.execFileHdrRawGrayscale f s

end Sys2Proof.Machine
end

