-- ==== Sys2Proof/Machine/Port.lean ====
section
/-! DEFINITION. What happens next: the command port in `IDLE` (70 R260, R264), the header fetch of CREAD, the phases
that wait for a stream (R267), and the reset input (R260). -/

namespace Sys2Proof.Machine

/-- A waiting codec command looks at its stream again, in its phase (R267, log 9). In the phases that no step leaves
the machine in and whose operands are gone, nothing happens. -/
def resume (s : State) : State :=
  match s.phase with
  | .idle => s
  | .exec => s
  | .wOpen => s
  | .wHeader => cwriteHeader s
  | .wPayload => cwritePayload s
  | .wFooter => cwriteFooter s
  | .rOpen => creadOpen s
  | .rHeader => creadHeader s
  | .rValidate => creadValidate s
  | .rAlloc => creadValidate s
  | .rDispatch => creadDispatch s
  | .rPayload => creadPayload s
  | .rOrientV => creadOrientV s
  | .rOrientH => creadOrientH s
  | .rCommit => creadCommit s

/-- In `IDLE` the oldest request is accepted and decoded, an illegal opcode raising `IllegalCommand` (R120, R240);
with none, the machine waits (R260). -/
def fetchCommand (s : State) : Fetched :=
  match s.port with
  | [] => .settle s
  | r :: rest =>
    match decodeDescriptor r.desc with
    | .ok i => .run i (accept r rest s)
    | .error _ => .settle (raise .illegalCommand (accept r rest s))

/-- In `R_HEADER` the 18 bytes of the source stream are decoded by the table's FILEHDR rows (R102); a header without
a row, or none yet, stays with `R_HEADER`. -/
def fetchHeader (s : State) : Fetched :=
  match srcRead s.source 0 Config.headerLen with
  | .complete bytes =>
    match decode bytes with
    | .ok i => .run i s
    | .error _ => .settle (creadHeader s)
  | _ => .settle (creadHeader s)

/-- What the next step runs. -/
def fetch (s : State) : Fetched :=
  if s.resetPin then .settle (resetEvent s)
  else
    match s.phase with
    | .idle => fetchCommand s
    | .rHeader => fetchHeader s
    | _ => .settle (resume s)

/-- The state with a word of the opcode table placed where the next step fetches: a descriptor at the head of the port
in `IDLE`, with the streams the state holds; a header as the source stream of a CREAD in `R_HEADER` (log 12). -/
def placeTableWord (s : State) (nbits w : Nat) : State :=
  if tableWordIsHeader nbits (w % 2 ^ nbits) then
    { s with resetPin := false, phase := .rHeader, srcOpen := true, pos := 0, source := .stream (tableBytes nbits w) }
  else
    { s with
      resetPin := false
      phase := .idle
      port := { desc := BitVec.ofNat 128 (leNat (tableBytes nbits w)), source := s.source, sink := s.sink } :: s.port }

end Sys2Proof.Machine
end

