-- ==== Sys2Proof/Safety.lean ====
section
/-! DEFINITION. What claims speak of: a buffer that meets 10_state R24, a machine at rest between commands, and the
invariant of every state a run reaches. -/

namespace Sys2Proof.Machine

/-- The invariants (a) to (d) of R24: the bytes are in canonical form and lie below `LEN` (the array's length is
`WIDTH*HEIGHT*BPP`), the dimensions are at most 32767, and `LEN` is at most `PIXMEM_BYTES` where that is bounded. (b) holds by the type of
`BPP`. -/
abbrev Buffer.Wf (p : Params) (b : Buffer) : Prop :=
  Memory.wf b.pix ∧ (∀ c ∈ b.pix, c.1 < bufLen b) ∧ b.width.toNat ≤ Config.dimMax ∧ b.height.toNat ≤ Config.dimMax ∧
    ∀ cap ∈ p.pixmemBytes, bufLen b ≤ cap

/-- Between commands: `IDLE`, no stream open, no new buffer (R31, R35, R36). -/
abbrev State.AtRest (s : State) : Prop :=
  s.phase = .idle ∧ s.srcOpen = false ∧ s.dstOpen = false ∧ s.nb = none ∧ s.out = none

/-- A CREAD waits for its header (R202, R267). -/
abbrev State.AwaitsHeader (s : State) : Prop :=
  s.phase = .rHeader ∧ s.srcOpen = true ∧ s.dstOpen = false ∧ s.nb = none ∧ s.out = none

/-- A CREAD waits for its payload (R202, R267). -/
abbrev State.AwaitsPayload (s : State) : Prop :=
  s.phase = .rPayload ∧ s.srcOpen = true ∧ s.dstOpen = false ∧ s.nb.isSome = true ∧ s.out = none

/-- A CWRITE waits for its sink (R170, R267). -/
abbrev State.AwaitsSink (s : State) : Prop :=
  (s.phase = .wHeader ∨ s.phase = .wPayload ∨ s.phase = .wFooter) ∧ s.srcOpen = false ∧ s.dstOpen = true ∧
    s.nb = none ∧ s.out.isSome = true

/-- The invariant of the machine: R24 for the buffer and for `NB`, and a sequencer that is at rest or waits for the
one stream it holds (R31, R35, R36). -/
def State.Inv (s : State) : Prop :=
  Buffer.Wf s.params s.buf ∧ (∀ b ∈ s.nb, Buffer.Wf s.params b) ∧
    (s.AtRest ∨ s.AwaitsHeader ∨ s.AwaitsPayload ∨ s.AwaitsSink)

/-- The byte of a pixel: channel `c` of column `x`, row `y` (R52). -/
def pixelByte (b : Buffer) (x y c : Nat) : Byte := Memory.readByte b.pix (pixelOff b x y + c)

/-- The whole file CWRITE writes: header, pixel bytes, footer (R91, R172). -/
def fileBytes (p : Params) (b : Buffer) (vf : Byte) : List Byte :=
  headerBytes (writtenHeader b vf) ++ payloadBytes b ++ footerBytes p

end Sys2Proof.Machine
end

