-- ==== Sys2Proof/Certificates/Slice0/Obligations.lean ====
section
/-! DEFINITION. The statements for the provers, from the spec's numbered rules. A result is stated as an equation of
the whole next state, so that it is the instruction's frame as well. -/

open Sys2Proof Sys2Proof.Machine

/-! ## Reset and the invariant -/

/-- 70 R261: what reset leaves, for every value of the parameters and of `RESET_BPP`, and that R24 holds there. -/
def Obligations.ResetLeavesTheEmptyBuffer : Prop :=
  (∃ p, State.reset = State.resetWith p Config.resetBpp) ∧
  ∀ (p : Params) (b : Bpp),
    let s := State.resetWith p b
    s.buf.width = 0 ∧ s.buf.height = 0 ∧ s.buf.pix = [] ∧ bufLen s.buf = 0 ∧ s.buf.bpp = b ∧ respWord s.resp = 0 ∧
      s.phase = .idle ∧ s.srcOpen = false ∧ s.dstOpen = false ∧ s.nb = none ∧ Buffer.Wf p s.buf

/-- The invariant holds at reset. -/
def Obligations.ResetMeetsTheInvariant : Prop :=
  State.reset.Inv ∧ ∀ (p : Params) (b : Bpp), (State.resetWith p b).Inv

/-- 10 R24, R31, R35, R36: every step keeps the invariant, from every state that meets it. -/
def Obligations.EveryStepKeepsTheInvariant : Prop :=
  ∀ s t : State, s.Inv → step s = .next t → t.Inv

/-- 70 R260: the reset input, whatever the machine does, gives the model's reset state. The registers R261 gives values
have those; `POS`, `HDR`, `LINEBUF`, which R261 leaves unspecified, have the model's choice of log 6, and `source`,
`sink` and `out` that of log 2. The host keeps its requests and its outputs (log 10). -/
def Obligations.ResetInputRestoresTheResetState : Prop :=
  ∀ s : State, s.resetPin = true →
    step s = .next { State.resetWith s.params Config.resetBpp with
      port := s.port, outs := s.outs ++ s.out.toList, draws := s.draws }

/-! ## Encoding and decoding -/

/-- 30 R81, R86, R92, R93: decoding the encoding of any instruction gives it back, every operand at every value. -/
def Obligations.DecodeUndoesEncode : Prop :=
  ∀ i : Instr, decode (encode i) = .ok i

/-- 30 R92, R102: a file header's bytes are determined by the row it decodes to, no bit dropped. -/
def Obligations.HeaderBytesAreDeterminedByTheirRow : Prop :=
  ∀ (h : Bytes18) (i : Instr), decode (headerBytes h) = .ok i → encode i = headerBytes h

/-- 30 R103: the worked encodings, both ways, and the worked responses. -/
def Obligations.WorkedEncodingsDecode : Prop :=
  (encode (.construct 2 2 3) = [0x01, 0x03, 0, 0, 0x02, 0, 0x02, 0, 0, 0, 0, 0, 0, 0, 0, 0] ∧
    decode [0x01, 0x03, 0, 0, 0x02, 0, 0x02, 0, 0, 0, 0, 0, 0, 0, 0, 0] = .ok (.construct 2 2 3)) ∧
  (encode (.set 1 0 3 0 255 0 0) = [0x03, 0x03, 0, 0, 0x01, 0, 0, 0, 0, 0xFF, 0, 0, 0, 0, 0, 0] ∧
    decode [0x03, 0x03, 0, 0, 0x01, 0, 0, 0, 0, 0xFF, 0, 0, 0, 0, 0, 0] = .ok (.set 1 0 3 0 255 0 0)) ∧
  (encode (.get (-1) 5) = [0x02, 0, 0, 0, 0xFF, 0xFF, 0x05, 0, 0, 0, 0, 0, 0, 0, 0, 0] ∧
    decode [0x02, 0, 0, 0, 0xFF, 0xFF, 0x05, 0, 0, 0, 0, 0, 0, 0, 0, 0] = .ok (.get (-1) 5)) ∧
  (encode (.rawwr 0x00012345 0x7F) = [0x07, 0, 0, 0, 0, 0, 0, 0, 0x7F, 0, 0, 0, 0x45, 0x23, 0x01, 0x00] ∧
    decode [0x07, 0, 0, 0, 0, 0, 0, 0, 0x7F, 0, 0, 0, 0x45, 0x23, 0x01, 0x00] = .ok (.rawwr 0x00012345 0x7F)) ∧
  (encode (.cwrite 1) = [0x10, 0x01, 0, 0, 0, 0, 0, 0, 0, 0, 0, 0, 0, 0, 0, 0] ∧
    decode [0x10, 0x01, 0, 0, 0, 0, 0, 0, 0, 0, 0, 0, 0, 0, 0, 0] = .ok (.cwrite 1)) ∧
  respBytes (respColour .rgb [0, 255, 0]) = [0x00, 0x03, 0x00, 0x00, 0x00, 0xFF, 0x00, 0x00] ∧
  respBytes (respVal 640) = [0x00, 0x00, 0x80, 0x02, 0x00, 0x00, 0x00, 0x00] ∧
  respBytes (respError .payloadTruncated) = [0x06, 0x00, 0x00, 0x00, 0x00, 0x00, 0x00, 0x00]

/-- 30 R83: descriptors that agree on the bits their command uses (R86) are the same command. -/
def Obligations.UnusedDescriptorFieldsHaveNoEffect : Prop :=
  ∀ d e : Desc, d &&& usedBits (descOp d) = e &&& usedBits (descOp d) → decodeDescriptor d = decodeDescriptor e

/-- 60 R240: an opcode that is none of the twelve raises `IllegalCommand` and changes no state but `RESP`. -/
def Obligations.UnallocatedOpcodesRaiseIllegalCommand : Prop :=
  ∀ (s : State) (r : Request) (rest : List Request), s.AtRest → s.resetPin = false → s.port = r :: rest →
    descOp r.desc ∉ ([0x01, 0x02, 0x03, 0x04, 0x05, 0x06, 0x07, 0x08, 0x09, 0x0A, 0x10, 0x11] : List Byte) →
    step s = .next { s with port := rest, source := r.source, sink := r.sink, resp := { err := 0x80 } }

/-! ## The step -/

/-- 70 R264, R270: in `IDLE` a step runs the instruction that the oldest request's bytes decode to, the request taken
from the port and its streams made the command's. -/
def Obligations.StepRunsTheDecodedCommand : Prop :=
  ∀ (s : State) (r : Request) (rest : List Request) (i : Instr), s.resetPin = false → s.phase = .idle →
    s.port = r :: rest → decode (descriptorBytes r.desc) = .ok i →
    step s = exec i { s with port := rest, source := r.source, sink := r.sink }

/-- 30 R102, 43 R192: in `R_HEADER` a step runs the row that the first 18 bytes of the source stream decode to. -/
def Obligations.StepRunsTheDecodedHeader : Prop :=
  ∀ (s : State) (S : List Byte) (i : Instr), s.resetPin = false → s.phase = .rHeader →
    (s.source = .stream S ∨ s.source = .stalling S) → 18 ≤ S.length → decode (S.take 18) = .ok i →
    step s = exec i s

/-- 70 R260: in `IDLE` with no request the machine waits for one. -/
def Obligations.IdleWithoutRequestWaits : Prop :=
  ∀ s : State, s.resetPin = false → s.phase = .idle → s.port = [] → step s = .next s

/-- 70 R264: a step that starts in a command in progress accepts no request, one in `IDLE` only the oldest. -/
def Obligations.PortAcceptsOneCommandAtATime : Prop :=
  ∀ s t : State, s.resetPin = false → step s = .next t →
    (s.phase ≠ .idle → t.port = s.port) ∧ (s.phase = .idle → t.port = s.port.tail)

/-! ## Pixel buffer commands -/

/-- 40 R121: CONSTRUCT, in the order of its checks. What it leaves in `LINEBUF`, whose length is that of a row, is left
open where it makes a buffer (10 R34). -/
def Obligations.ConstructMakesAZeroFilledBuffer : Prop :=
  (∀ d : Desc, descOp d = 0x01 → decodeDescriptor d = .ok (.construct (descA d) (descB d) (descM d))) ∧
  ∀ (s : State) (w h : Half) (m : Byte), s.AtRest →
    (m.toNat ∉ [1, 3, 4] → exec (.construct w h m) s = .next { s with resp := { err := 0x81 } }) ∧
    ∀ (b : Bpp) (w' h' : Half), m.toNat = bppBytes b → (w'.toNat : Int) = max w.toInt 0 →
      (h'.toNat : Int) = max h.toInt 0 →
      ((∃ cap ∈ s.params.pixmemBytes, cap < w'.toNat * h'.toNat * bppBytes b) →
        exec (.construct w h m) s = .next { s with resp := { err := 0x83 } }) ∧
      ((∀ cap ∈ s.params.pixmemBytes, w'.toNat * h'.toNat * bppBytes b ≤ cap) →
        (∃ row : List Byte, exec (.construct w h m) s = .next { s with
            buf := { width := w', height := h', bpp := b, pix := [] }, resp := {}, lineBuf := row }) ∧
          ∀ k, Memory.readByte [] k = 0)

/-- 40 R122: GET, the pixel's bytes in range, the zero colour out of range, `N = BPP` in both, no state but `RESP`. -/
def Obligations.GetReturnsThePixelOrTheZeroColour : Prop :=
  (∀ d : Desc, descOp d = 0x02 → decodeDescriptor d = .ok (.get (descA d) (descB d))) ∧
  ∀ (s : State) (x y : Half), s.AtRest →
    let P := bppBytes s.buf.bpp
    let off := (y.toInt.toNat * s.buf.width.toNat + x.toInt.toNat) * P
    ((0 ≤ x.toInt ∧ x.toInt < s.buf.width.toNat ∧ 0 ≤ y.toInt ∧ y.toInt < s.buf.height.toNat) →
      exec (.get x y) s = .next { s with resp :=
        { n := BitVec.ofNat 8 P
          c0 := Memory.readByte s.buf.pix off
          c1 := if 1 < P then Memory.readByte s.buf.pix (off + 1) else 0
          c2 := if 2 < P then Memory.readByte s.buf.pix (off + 2) else 0
          c3 := if 3 < P then Memory.readByte s.buf.pix (off + 3) else 0 } }) ∧
    (¬(0 ≤ x.toInt ∧ x.toInt < s.buf.width.toNat ∧ 0 ≤ y.toInt ∧ y.toInt < s.buf.height.toNat) →
      exec (.get x y) s = .next { s with resp := { n := BitVec.ofNat 8 P } })

/-- 40 R123: SET stores `min(BPP, n)` channels in the pixel's slot, every other byte as before; nothing out of range;
an illegal count is refused first. -/
def Obligations.SetStoresTheColourOrNothing : Prop :=
  (∀ d : Desc, descOp d = 0x03 → decodeDescriptor d = .ok (.set (descA d) (descB d) (descM d) (descC0 d) (descC1 d) (descC2 d) (descC3 d))) ∧
  ∀ (s : State) (x y : Half) (n c0 c1 c2 c3 : Byte), s.AtRest → Memory.wf s.buf.pix →
    let off := (y.toInt.toNat * s.buf.width.toNat + x.toInt.toNat) * bppBytes s.buf.bpp
    let k := min (bppBytes s.buf.bpp) n.toNat
    (n.toNat ∉ [1, 3, 4] → exec (.set x y n c0 c1 c2 c3) s = .next { s with resp := { err := 0x81 } }) ∧
    (n.toNat ∈ [1, 3, 4] →
      ¬(0 ≤ x.toInt ∧ x.toInt < s.buf.width.toNat ∧ 0 ≤ y.toInt ∧ y.toInt < s.buf.height.toNat) →
      exec (.set x y n c0 c1 c2 c3) s = .next { s with resp := {} }) ∧
    (n.toNat ∈ [1, 3, 4] →
      (0 ≤ x.toInt ∧ x.toInt < s.buf.width.toNat ∧ 0 ≤ y.toInt ∧ y.toInt < s.buf.height.toNat) →
      ∃ m, exec (.set x y n c0 c1 c2 c3) s = .next { s with buf := { s.buf with pix := m }, resp := {} } ∧
        Memory.wf m ∧
        ∀ a, Memory.readByte m a =
          if off ≤ a ∧ a < off + k then [c0, c1, c2, c3].getD (a - off) 0 else Memory.readByte s.buf.pix a)

/-- 40 R124: RAWRD returns the byte at its offset, channel `o mod BPP` of the pixel there; `RawRange` from `LEN` on. -/
def Obligations.RawReadReturnsTheByteOrRawRange : Prop :=
  (∀ d : Desc, descOp d = 0x06 → decodeDescriptor d = .ok (.rawrd (descOff d))) ∧
  ∀ (s : State) (off : Offset), s.AtRest →
    (off.toNat < s.buf.width.toNat * s.buf.height.toNat * bppBytes s.buf.bpp →
      exec (.rawrd off) s = .next { s with resp := { val := (Memory.readByte s.buf.pix off.toNat).setWidth 16 } } ∧
      Memory.readByte s.buf.pix off.toNat =
        pixelByte s.buf (off.toNat / bppBytes s.buf.bpp % s.buf.width.toNat)
          (off.toNat / bppBytes s.buf.bpp / s.buf.width.toNat) (off.toNat % bppBytes s.buf.bpp)) ∧
    (s.buf.width.toNat * s.buf.height.toNat * bppBytes s.buf.bpp ≤ off.toNat →
      exec (.rawrd off) s = .next { s with resp := { err := 0x82 } })

/-- 40 R125: RAWWR stores its byte at its offset and no other; `RawRange` from `LEN` on, nothing stored. -/
def Obligations.RawWriteStoresTheByteOrRawRange : Prop :=
  (∀ d : Desc, descOp d = 0x07 → decodeDescriptor d = .ok (.rawwr (descOff d) (descC0 d))) ∧
  ∀ (s : State) (off : Offset) (b : Byte), s.AtRest → Memory.wf s.buf.pix →
    (off.toNat < s.buf.width.toNat * s.buf.height.toNat * bppBytes s.buf.bpp →
      ∃ m, exec (.rawwr off b) s = .next { s with buf := { s.buf with pix := m }, resp := {} } ∧ Memory.wf m ∧
        ∀ a, Memory.readByte m a = if a = off.toNat then b else Memory.readByte s.buf.pix a) ∧
    (s.buf.width.toNat * s.buf.height.toNat * bppBytes s.buf.bpp ≤ off.toNat →
      exec (.rawwr off b) s = .next { s with resp := { err := 0x82 } })

/-- 40 R126: QW. -/
def Obligations.QwReturnsTheWidth : Prop :=
  (∀ d : Desc, descOp d = 0x08 → decodeDescriptor d = .ok .qw) ∧
  ∀ s : State, s.AtRest → exec .qw s = .next { s with resp := { val := s.buf.width } }

/-- 40 R127: QH. -/
def Obligations.QhReturnsTheHeight : Prop :=
  (∀ d : Desc, descOp d = 0x09 → decodeDescriptor d = .ok .qh) ∧
  ∀ s : State, s.AtRest → exec .qh s = .next { s with resp := { val := s.buf.height } }

/-- 40 R128: QBPP. After reset the value is `RESET_BPP`, which this statement leaves open. -/
def Obligations.QbppReturnsTheBytesPerPixel : Prop :=
  (∀ d : Desc, descOp d = 0x0A → decodeDescriptor d = .ok .qbpp) ∧
  ∀ s : State, s.AtRest → exec .qbpp s = .next { s with resp := { val := BitVec.ofNat 16 (bppBytes s.buf.bpp) } }

/-- 20 R63, 40 R122, R123: a GET after a SET of the same pixel returns the channels stored, and those kept. -/
def Obligations.GetAfterSetReturnsTheColour : Prop :=
  ∀ (s t u : State) (x y : Half) (n c0 c1 c2 c3 : Byte), s.AtRest → Memory.wf s.buf.pix → inRange s.buf x y →
    n.toNat ∈ [1, 3, 4] → exec (.set x y n c0 c1 c2 c3) s = .next t → exec (.get x y) t = .next u →
    u.resp.c0 = c0 ∧
    (s.buf.bpp ≠ .grayscale → 3 ≤ n.toNat → u.resp.c1 = c1 ∧ u.resp.c2 = c2) ∧
    (s.buf.bpp ≠ .grayscale → n.toNat = 1 →
      u.resp.c1 = Memory.readByte s.buf.pix (operandOff s.buf x y + 1) ∧
      u.resp.c2 = Memory.readByte s.buf.pix (operandOff s.buf x y + 2)) ∧
    (s.buf.bpp = .rgba → n.toNat = 4 → u.resp.c3 = c3) ∧
    (s.buf.bpp = .rgba → n.toNat ≠ 4 →
      u.resp.c3 = Memory.readByte s.buf.pix (operandOff s.buf x y + 3))

/-- 20 R63, 40 R124, R125: a RAWRD after a RAWWR returns the byte written at its offset, elsewhere the byte before. -/
def Obligations.RawReadAfterRawWrite : Prop :=
  ∀ (s t u : State) (o o' : Offset) (b : Byte), s.AtRest → Memory.wf s.buf.pix → o.toNat < bufLen s.buf →
    o'.toNat < bufLen s.buf → exec (.rawwr o b) s = .next t → exec (.rawrd o') t = .next u →
    u.resp = { val := if o' = o then b.setWidth 16 else (Memory.readByte s.buf.pix o'.toNat).setWidth 16 }

/-- 20 R54: a raw read of an offset inside a pixel's slot returns the byte GET returns as that channel. -/
def Obligations.RawReadsSeeTheChannelsGetReturns : Prop :=
  ∀ (s t u : State) (x y : Half) (o : Offset), s.AtRest → inRange s.buf x y → operandOff s.buf x y ≤ o.toNat →
    o.toNat < operandOff s.buf x y + bppBytes s.buf.bpp → exec (.get x y) s = .next t →
    exec (.rawrd o) s = .next u →
    u.resp = { val := ([t.resp.c0, t.resp.c1, t.resp.c2, t.resp.c3].getD
      (o.toNat - operandOff s.buf x y) 0).setWidth 16 }

/-- 20 R51, 40 R129 (a), (b): an in-range pixel's slot lies inside pixel memory, which fits 32-bit offsets. -/
def Obligations.InRangeSlotsLieInsidePixelMemory : Prop :=
  ∀ (b : Buffer) (x y : Half), b.width.toNat ≤ 32767 → b.height.toNat ≤ 32767 →
    bufLen b ≤ 4294705156 ∧ (inRange b x y → operandOff b x y + bppBytes b.bpp ≤ bufLen b)

/-- 20 R52, 40 R124: the model's offset of a pixel's byte lies below the model's `LEN` and determines the pixel and the
channel, and every offset below `LEN` is that of channel `k mod BPP` of column `(k / BPP) mod WIDTH`, row
`(k / BPP) / WIDTH`. -/
def Obligations.PixelBytesAndOffsetsCorrespond : Prop :=
  ∀ b : Buffer,
    (∀ x y c : Nat, x < b.width.toNat → y < b.height.toNat → c < bppBytes b.bpp →
      pixelOff b x y + c < bufLen b ∧ (pixelOff b x y + c) / bppBytes b.bpp % b.width.toNat = x ∧
        (pixelOff b x y + c) / bppBytes b.bpp / b.width.toNat = y ∧ (pixelOff b x y + c) % bppBytes b.bpp = c) ∧
    ∀ k, k < bufLen b →
      k / bppBytes b.bpp % b.width.toNat < b.width.toNat ∧ k / bppBytes b.bpp / b.width.toNat < b.height.toNat ∧
        k % bppBytes b.bpp < bppBytes b.bpp ∧
        pixelOff b (k / bppBytes b.bpp % b.width.toNat) (k / bppBytes b.bpp / b.width.toNat) + k % bppBytes b.bpp = k

/-! ## The mirror engines -/

/-- 41 R150: FLIPH is its in-place procedure, which has the functional form: column `i` becomes column
`WIDTH - 1 - i`, channels kept, no byte outside pixel memory changed. -/
def Obligations.FliphMirrorsLeftToRight : Prop :=
  (∀ d : Desc, descOp d = 0x04 → decodeDescriptor d = .ok .fliph) ∧
  ∀ s : State, s.AtRest → Memory.wf s.buf.pix →
    let b : Buffer := { s.buf with pix := flipHInPlace s.buf }
    exec .fliph s = .next { s with buf := b, resp := {} } ∧
      (∀ i j c, i < s.buf.width.toNat → j < s.buf.height.toNat → c < bppBytes s.buf.bpp →
        pixelByte b i j c = pixelByte s.buf (s.buf.width.toNat - 1 - i) j c) ∧
      ∀ k, bufLen s.buf ≤ k → Memory.readByte b.pix k = Memory.readByte s.buf.pix k

/-- 41 R151: FLIPV is its in-place procedure, which has the functional form: row `j` becomes row `HEIGHT - 1 - j`. What
it leaves in `LINEBUF` is some row of bytes, left open as 10 R34 leaves it (log 14). -/
def Obligations.FlipvMirrorsTopToBottom : Prop :=
  (∀ d : Desc, descOp d = 0x05 → decodeDescriptor d = .ok .flipv) ∧
  ∀ s : State, s.AtRest → Memory.wf s.buf.pix →
    let b : Buffer := { s.buf with pix := flipVInPlace s.buf }
    (∃ (row : List Byte) (n : Nat), row.length = s.buf.width.toNat * bppBytes s.buf.bpp ∧
      exec .flipv s = .next { s with buf := b, resp := {}, lineBuf := row, draws := n }) ∧
      (∀ i j c, i < s.buf.width.toNat → j < s.buf.height.toNat → c < bppBytes s.buf.bpp →
        pixelByte b i j c = pixelByte s.buf i (s.buf.height.toNat - 1 - j) c) ∧
      ∀ k, bufLen s.buf ≤ k → Memory.readByte b.pix k = Memory.readByte s.buf.pix k

/-- 41 R152 (a): each flip undoes itself. -/
def Obligations.FlipsAreInvolutions : Prop :=
  ∀ s t u : State, Memory.wf s.buf.pix →
    (exec .fliph s = .next t → exec .fliph t = .next u → u.buf = s.buf) ∧
    (exec .flipv s = .next t → exec .flipv t = .next u → u.buf = s.buf)

/-- 41 R152 (b): the flips commute. -/
def Obligations.FlipsCommute : Prop :=
  ∀ s t u t' u' : State, exec .fliph s = .next t → exec .flipv t = .next u → exec .flipv s = .next t' →
    exec .fliph t' = .next u' → u.buf = u'.buf

/-- 41 R152 (d): on a one-pixel buffer and on an empty buffer both flips are the identity. -/
def Obligations.FlipsOfOnePixelOrNoneAreTheIdentity : Prop :=
  ∀ s t : State, Buffer.Wf s.params s.buf →
    (s.buf.width = 1 ∧ s.buf.height = 1 ∨ s.buf.width = 0 ∨ s.buf.height = 0) →
    (exec .fliph s = .next t ∨ exec .flipv s = .next t) → t.buf = s.buf

/-! ## The serialiser -/

/-- 42 R171: the header CWRITE builds, byte by byte. -/
def Obligations.WrittenHeaderBytes : Prop :=
  ∀ (b : Buffer) (vf : Byte),
    headerBytes (writtenHeader b vf) =
      [0, 0, if bppBytes b.bpp = 1 then 3 else 2, 0, 0, 0, 0, 0, 0, 0, 0, 0,
        BitVec.ofNat 8 (b.width.toNat % 256), BitVec.ofNat 8 (b.width.toNat / 256),
        BitVec.ofNat 8 (b.height.toNat % 256), BitVec.ofNat 8 (b.height.toNat / 256),
        BitVec.ofNat 8 (8 * bppBytes b.bpp), if vf = 1 then 0x00 else 0x20]

/-- 42 R172: the outcome of CWRITE as a function of the sink, the bytes emitted and the code, the buffer unchanged.
What `POS` and `HDR` hold afterwards is left open (10 R32, R33). -/
def Obligations.CwriteOutcomeByTheSink : Prop :=
  (∀ d : Desc, descOp d = 0x10 → decodeDescriptor d = .ok (.cwrite (descM d))) ∧
  ∀ (s : State) (vf : Byte), s.AtRest →
    let F := headerBytes (writtenHeader s.buf vf) ++ Memory.readBytes s.buf.pix 0 (bufLen s.buf) ++
      (List.replicate 8 0 ++ leBytes 18 s.params.footerSig.toNat)
    F.length = 44 + bufLen s.buf ∧
    (vf ≠ 0 → vf ≠ 1 → exec (.cwrite vf) s = .next { s with resp := { err := 0x81 } }) ∧
    ((vf = 0 ∨ vf = 1) →
      (s.sink = .closed → exec (.cwrite vf) s = .next { s with resp := { err := 0x01 } }) ∧
      ∃ (p : Nat) (h : Bytes18) (d : Nat),
        (∀ cap, s.sink = .takes (some cap) →
          exec (.cwrite vf) s = .next { s with
            resp := { err := if cap < 18 then 0x03 else if cap < 18 + bufLen s.buf then 0x07
              else if cap < 44 + bufLen s.buf then 0x08 else 0x00 }
            outs := s.outs ++ [F.take cap]
            pos := p, hdr := h, draws := d }) ∧
        (s.sink = .takes none →
          exec (.cwrite vf) s = .next { s with
            resp := {}
            outs := s.outs ++ [F]
            pos := p, hdr := h, draws := d }))

/-- 42 R173: CWRITE never changes the buffer, and releases the sink when it ends. -/
def Obligations.CwriteLeavesTheBuffer : Prop :=
  ∀ (s t : State) (vf : Byte), s.AtRest → exec (.cwrite vf) s = .next t →
    t.buf = s.buf ∧ (t.phase = .idle → t.dstOpen = false ∧ t.out = none)

/-- 42 R176: the laws of CWRITE on success. -/
def Obligations.CwriteSuccessLaws : Prop :=
  ∀ (s : State) (vf : Byte), s.AtRest → s.buf.width.toNat ≤ 32767 → s.buf.height.toNat ≤ 32767 →
    (vf = 0 ∨ vf = 1) → s.sink = .takes none →
    ∃ t o, exec (.cwrite vf) s = .next t ∧ t.resp = {} ∧ t.outs = s.outs ++ [o] ∧ o.length = 44 + bufLen s.buf ∧
      (∀ k ∈ [0, 1, 3, 4, 5, 6, 7, 8, 9, 10, 11], o.getD k 1 = 0) ∧ (o.getD 2 0 = 2 ∨ o.getD 2 0 = 3) ∧
      (∃ w ≤ 32767, o.getD 12 0 = BitVec.ofNat 8 (w % 256) ∧ o.getD 13 0 = BitVec.ofNat 8 (w / 256)) ∧
      (∃ h ≤ 32767, o.getD 14 0 = BitVec.ofNat 8 (h % 256) ∧ o.getD 15 0 = BitVec.ofNat 8 (h / 256)) ∧
      o.getD 16 0 ∈ ([8, 24, 32] : List Byte) ∧ (o.getD 16 0 = 8 ↔ o.getD 2 0 = 3) ∧
      (o.getD 17 1 = 0x00 ∨ o.getD 17 1 = 0x20) ∧
      (∀ k, k < bufLen s.buf → o.getD (18 + k) 0 = Memory.readByte s.buf.pix k) ∧
      (∀ k, k < 8 → o.getD (18 + bufLen s.buf + k) 1 = 0) ∧
      o.drop (26 + bufLen s.buf) = leBytes 18 s.params.footerSig.toNat

/-- 20 R59, 70 R267: a sink that stops answering before the file is whole leaves CWRITE in the phase of the byte not
taken, `RESP` and the buffer as before, the sink holding what it took; one that takes it all gives success (log 9). -/
def Obligations.StalledSinkLeavesCwriteWaiting : Prop :=
  ∀ (s : State) (vf : Byte) (n : Nat), s.AtRest → (vf = 0 ∨ vf = 1) → s.sink = .stalling n →
    (n < 44 + bufLen s.buf →
      exec (.cwrite vf) s = .next { s with
        phase := if n < 18 then .wHeader else if n < 18 + bufLen s.buf then .wPayload else .wFooter
        dstOpen := true
        out := some ((fileBytes s.params s.buf vf).take n)
        pos := n
        hdr := writtenHeader s.buf vf }) ∧
    (44 + bufLen s.buf ≤ n →
      exec (.cwrite vf) s = .next { s with
        resp := {}
        outs := s.outs ++ [fileBytes s.params s.buf vf]
        pos := Config.freePos s.draws, hdr := Config.freeHdr s.draws, draws := s.draws + 1 })

/-! ## The header parser and payload loader -/

/-- 43 R190: CREAD, its steps and failures in the order of the pseudocode, each field read from the stream's bytes.
What `POS` and `HDR` hold afterwards is left open, and `LINEBUF` where the buffer is replaced (10 R32 to R34). -/
def Obligations.CreadFollowsItsPseudocode : Prop :=
  (∀ d : Desc, descOp d = 0x11 → decodeDescriptor d = .ok .cread) ∧
  ∀ s : State, s.AtRest →
    (s.source = .absent → exec .cread s = .next { s with resp := { err := 0x01 } }) ∧
    ∀ S : List Byte, s.source = .stream S → ∃ (p : Nat) (hd : Bytes18) (d : Nat) (row : List Byte),
      let ends := fun (e : Byte) => { s with resp := { err := e }, pos := p, hdr := hd, draws := d }
      let w : Half := S.getD 13 0 ++ S.getD 12 0
      let h : Half := S.getD 15 0 ++ S.getD 14 0
      (S.length < 18 → exec .cread s = .next (ends 0x02)) ∧
      (18 ≤ S.length →
        (¬(0 < w.toInt ∧ 0 < h.toInt ∧ (S.getD 16 0).toNat ∈ [8, 24, 32]) →
          exec .cread s = .next (ends 0x04)) ∧
        ∀ b : Bpp, 0 < w.toInt → 0 < h.toInt → (S.getD 16 0).toNat = 8 * bppBytes b →
          let n := w.toNat * h.toNat * bppBytes b
          ((∃ cap ∈ s.params.pixmemBytes, cap < n) → exec .cread s = .next (ends 0x83)) ∧
          ((∀ cap ∈ s.params.pixmemBytes, n ≤ cap) → (S.getD 2 0).toNat ∉ [2, 3] →
            exec .cread s = .next (ends 0x05)) ∧
          ((∀ cap ∈ s.params.pixmemBytes, n ≤ cap) → (S.getD 2 0).toNat ∈ [2, 3] → S.length < 18 + n →
            exec .cread s = .next (ends 0x06)) ∧
          ((∀ cap ∈ s.params.pixmemBytes, n ≤ cap) → (S.getD 2 0).toNat ∈ [2, 3] → 18 + n ≤ S.length →
            let loaded : Buffer :=
              { width := w, height := h, bpp := b, pix := Memory.ofBytes 0 ((S.drop 18).take n) }
            let upright := if (S.getD 17 0) &&& 0x20 = 0 then flipV loaded else loaded
            exec .cread s = .next { ends 0x00 with
                lineBuf := row
                buf := if (S.getD 17 0) &&& 0x10 ≠ 0 then flipH upright else upright } ∧
              ∀ k, Memory.readByte loaded.pix k = ((S.drop 18).take n).getD k 0))

/-- 43 R199: the four orientations, pixel by pixel: bit `0x20` clear mirrors the rows, bit `0x10` set the columns. -/
def Obligations.CreadNormalisesTheOrientation : Prop :=
  ∀ (s t : State) (S : List Byte) (i j c : Nat), s.AtRest → s.source = .stream S → exec .cread s = .next t →
    t.resp.err = 0 → i < t.buf.width.toNat → j < t.buf.height.toNat → c < bppBytes t.buf.bpp →
    pixelByte t.buf i j c =
      S.getD (18 +
        (((if (S.getD 17 0).getLsbD 5 then j else t.buf.height.toNat - 1 - j) * t.buf.width.toNat +
          (if (S.getD 17 0).getLsbD 4 then t.buf.width.toNat - 1 - i else i)) * bppBytes t.buf.bpp + c)) 0

/-- 43 R201: header bytes 0, 1, 3 to 11, the other six bits of byte 17 and every byte after the payload do not
influence CREAD. -/
def Obligations.CreadIgnoresTheUnusedBytes : Prop :=
  ∀ (s : State) (H H' P T T' : List Byte), s.AtRest → H.length = 18 → H'.length = 18 →
    (∀ k ∈ [2, 12, 13, 14, 15, 16], H.getD k 0 = H'.getD k 0) →
    (H.getD 17 0) &&& 0x30 = (H'.getD 17 0) &&& 0x30 →
    (H.getD 13 0 ++ H.getD 12 0).toNat * (H.getD 15 0 ++ H.getD 14 0).toNat * ((H.getD 16 0).toNat / 8) ≤ P.length →
    ∃ t t', exec .cread { s with source := .stream (H ++ P ++ T) } = .next t ∧
      exec .cread { s with source := .stream (H' ++ P ++ T') } = .next t' ∧ t.buf = t'.buf ∧ t.resp = t'.resp

/-- 43 R203 (d): the buffer CREAD loads does not depend on the one it replaces. -/
def Obligations.CreadForgetsThePreviousBuffer : Prop :=
  ∀ (s t t' : State) (b : Buffer) (S : List Byte), s.AtRest → s.source = .stream S → exec .cread s = .next t →
    exec .cread { s with buf := b } = .next t' → t'.resp = t.resp ∧ (t.resp.err = 0 → t'.buf = t.buf)

/-- 43 R203 (a), corrected by 90 C2: CREAD of what `CWRITE 0` wrote restores the buffer, of what `CWRITE 1` wrote its
vertical mirror. -/
def Obligations.ReadUndoesWrite : Prop :=
  ∀ (s : State) (vf : Byte), s.AtRest → Buffer.Wf s.params s.buf → 0 < s.buf.width.toNat → 0 < s.buf.height.toNat →
    (vf = 0 ∨ vf = 1) → s.sink = .takes none →
    ∃ (F : List Byte) (t u : State), exec (.cwrite vf) s = .next t ∧ t.resp = {} ∧ t.outs = s.outs ++ [F] ∧
      exec .cread { t with source := .stream F } = .next u ∧ u.resp = {} ∧
      u.buf = if vf = 0 then s.buf else flipV s.buf

/-- 70 R267: CREAD of a stream that answers the bytes `S` and then never again. It waits in `R_HEADER` or, its header
accepted, in `R_PAYLOAD`, `RESP` and the buffer as before, where it needs a byte that is not answered; where `S` has all
it needs it ends as CREAD of a complete stream does: the header refused, or the payload loaded (log 9). What `POS` and
`HDR` hold after it has ended is left open. That loading keeps `LINEBUF` is the model's choice (log 14, log 22). -/
def Obligations.StalledSourceLeavesCreadWaiting : Prop :=
  ∀ (s : State) (S : List Byte), s.AtRest → s.source = .stalling S → ∃ (p : Nat) (hd : Bytes18) (d : Nat),
    let ends := fun (e : Byte) => { s with resp := { err := e }, pos := p, hdr := hd, draws := d }
    let w : Half := S.getD 13 0 ++ S.getD 12 0
    let h : Half := S.getD 15 0 ++ S.getD 14 0
    (S.length < 18 →
      exec .cread s = .next { s with phase := .rHeader, srcOpen := true, pos := S.length }) ∧
    (18 ≤ S.length →
      (¬(0 < w.toInt ∧ 0 < h.toInt ∧ (S.getD 16 0).toNat ∈ [8, 24, 32]) → exec .cread s = .next (ends 0x04)) ∧
      ∀ b : Bpp, 0 < w.toInt → 0 < h.toInt → (S.getD 16 0).toNat = 8 * bppBytes b →
        let n := w.toNat * h.toNat * bppBytes b
        ((∃ cap ∈ s.params.pixmemBytes, cap < n) → exec .cread s = .next (ends 0x83)) ∧
        ((∀ cap ∈ s.params.pixmemBytes, n ≤ cap) → (S.getD 2 0).toNat ∉ [2, 3] →
          exec .cread s = .next (ends 0x05)) ∧
        ((∀ cap ∈ s.params.pixmemBytes, n ≤ cap) → (S.getD 2 0).toNat ∈ [2, 3] → S.length < 18 + n →
          ∃ hdr, headerBytes hdr = S.take 18 ∧
            exec .cread s = .next { s with
              phase := .rPayload
              srcOpen := true
              pos := S.length
              hdr := hdr
              nb := some { width := w, height := h, bpp := b, pix := [] } }) ∧
        ((∀ cap ∈ s.params.pixmemBytes, n ≤ cap) → (S.getD 2 0).toNat ∈ [2, 3] → 18 + n ≤ S.length →
          let loaded : Buffer :=
            { width := w, height := h, bpp := b, pix := Memory.ofBytes 0 ((S.drop 18).take n) }
          let upright := if (S.getD 17 0) &&& 0x20 = 0 then flipV loaded else loaded
          exec .cread s = .next { ends 0x00 with
            buf := if (S.getD 17 0) &&& 0x10 ≠ 0 then flipH upright else upright }))

/-- 70 R267: a command that waits for its stream stays as it is, step after step, until reset. -/
def Obligations.WaitingCommandsStayUntilReset : Prop :=
  ∀ (i : Instr) (s t : State), s.AtRest → s.resetPin = false → exec i s = .next t → t.phase ≠ .idle →
    t.resp = s.resp ∧ t.buf = s.buf ∧ step t = .next t

/-- 70 R267 (log 9): a waiting CREAD whose stream answers after all ends as CREAD of the whole stream does. -/
def Obligations.LateAnswerCompletesCread : Prop :=
  ∀ (s t : State) (S S' : List Byte), s.AtRest → s.resetPin = false → s.source = .stalling S → S <+: S' →
    exec .cread s = .next t → t.phase ≠ .idle →
    step { t with source := .stream S' } = exec .cread { s with source := .stream S' }

/-- 70 R267 (log 9): a waiting CWRITE whose sink answers after all, bounded or not, ends as CWRITE to that sink
does. -/
def Obligations.LateAnswerCompletesCwrite : Prop :=
  ∀ (s t : State) (vf : Byte) (n : Nat) (cap : Option Nat), s.AtRest → s.resetPin = false →
    s.sink = .stalling n → (∀ c ∈ cap, n ≤ c) → exec (.cwrite vf) s = .next t → t.phase ≠ .idle →
    step { t with sink := .takes cap } = exec (.cwrite vf) { s with sink := .takes cap }

/-- 30 R93, R102, 43 R193 to R200: the two FILEHDR rows, run where CREAD fetched them: validation, capacity, payload,
orientation and commit; both rows load alike. A stream that has ended before the payload is whole gives
`PayloadTruncated`, one that has stopped answering leaves the command in `R_PAYLOAD` (log 9, log 19); in every other
case the two kinds of stream give the same. `POS` and `HDR` after the end are free values (log 7). That loading keeps
`LINEBUF` is the model's choice (log 14, log 22). -/
def Obligations.HeaderRowsLoadTheFile : Prop :=
  ∀ (s : State) (i : Instr) (f : FileHeader) (S : List Byte),
    (i = .fileHdrRawTruecolor f ∨ i = .fileHdrRawGrayscale f) → s.AwaitsHeader →
    (s.source = .stream S ∨ s.source = .stalling S) →
    let ends := fun (e : Byte) => { s with
      resp := { err := e }, phase := .idle, srcOpen := false
      pos := Config.freePos s.draws, hdr := Config.freeHdr s.draws, draws := s.draws + 1 }
    (¬(0 < f.width.toInt ∧ 0 < f.height.toInt ∧ f.bitsperpixel.toNat ∈ [8, 24, 32]) →
      exec i s = .next (ends 0x04)) ∧
    ∀ b : Bpp, 0 < f.width.toInt → 0 < f.height.toInt → f.bitsperpixel.toNat = 8 * bppBytes b →
      let n := f.width.toNat * f.height.toNat * bppBytes b
      ((∃ cap ∈ s.params.pixmemBytes, cap < n) → exec i s = .next (ends 0x83)) ∧
      ((∀ cap ∈ s.params.pixmemBytes, n ≤ cap) → S.length < 18 + n →
        (s.source = .stream S → exec i s = .next (ends 0x06)) ∧
        (s.source = .stalling S → ∃ hdr, headerBytes hdr = encode i ∧
          exec i s = .next { s with
            phase := .rPayload
            pos := S.length
            hdr := hdr
            nb := some { width := f.width, height := f.height, bpp := b, pix := [] } })) ∧
      ((∀ cap ∈ s.params.pixmemBytes, n ≤ cap) → 18 + n ≤ S.length →
        let loaded : Buffer :=
          { width := f.width, height := f.height, bpp := b, pix := Memory.ofBytes 0 ((S.drop 18).take n) }
        let upright := if f.imagedescriptor &&& 0x20 = 0 then flipV loaded else loaded
        exec i s = .next { ends 0x00 with
          buf := if f.imagedescriptor &&& 0x10 ≠ 0 then flipH upright else upright })

/-- 30 R102, 43 R202: CREAD of a stream whose header has a row is that row run with the stream open. -/
def Obligations.CreadRunsTheHeadersRow : Prop :=
  ∀ (s : State) (S : List Byte) (i : Instr), (s.source = .stream S ∨ s.source = .stalling S) → 18 ≤ S.length →
    decode (S.take 18) = .ok i → exec .cread s = exec i { s with srcOpen := true, pos := 0 }

/-! ## Responses, failures and what no command changes -/

/-- 60 R231: the codes of the error names, all distinct and none 0. -/
def Obligations.ErrorCodesAreTheTables : Prop :=
  [ErrCode.streamOpenFailure, .headerReadFailure, .headerWriteFailure, .invalidHeaderValues, .unsupportedDataType,
      .payloadTruncated, .payloadWriteFailure, .footerWriteFailure, .illegalCommand, .illegalOperand, .rawRange,
      .capacityExceeded].map errCode =
    [0x01, 0x02, 0x03, 0x04, 0x05, 0x06, 0x07, 0x08, 0x80, 0x81, 0x82, 0x83] ∧
  (∀ e e' : ErrCode, errCode e = errCode e' → e = e') ∧ ∀ e : ErrCode, errCode e ≠ 0

/-- 30 R84: the places of the response's fields in `RESP`, and its eight bytes, little-endian. -/
def Obligations.ResponseFieldsLieWhereTheTableSays : Prop :=
  ∀ r : Resp,
    (respWord r).extractLsb' 0 8 = r.err ∧ (respWord r).extractLsb' 8 8 = r.n ∧
    (respWord r).extractLsb' 16 16 = r.val ∧ (respWord r).extractLsb' 32 8 = r.c0 ∧
    (respWord r).extractLsb' 40 8 = r.c1 ∧ (respWord r).extractLsb' 48 8 = r.c2 ∧
    (respWord r).extractLsb' 56 8 = r.c3 ∧
    respBytes r = [r.err, r.n, r.val.extractLsb' 0 8, r.val.extractLsb' 8 8, r.c0, r.c1, r.c2, r.c3]

/-- 60 R247: what a failure changes: `RESP`, which is the code and zeros; for a CWRITE the outputs; for a codec
instruction `POS` and `HDR`, unspecified then (10 R32, R33), with the counter of free values (log 7). Every other field
of the state is as it was at rest: the buffer, `PHASE` in `IDLE`, the streams released, no `NB`, `LINEBUF`, the port and
the parameters. -/
def Obligations.FailuresChangeRespAndStreamTracesAlone : Prop :=
  ∀ (i : Instr) (s t : State), s.AtRest → exec i s = .next t → t.phase = .idle → t.resp.err ≠ 0 →
    (∃ e, t = { s with
      resp := { err := errCode e }, outs := t.outs, pos := t.pos, hdr := t.hdr, draws := t.draws }) ∧
    ((∀ vf, i ≠ .cwrite vf) → t.outs = s.outs) ∧
    ((∀ vf, i ≠ .cwrite vf) → i ≠ .cread → (∀ f, i ≠ .fileHdrRawTruecolor f) → (∀ f, i ≠ .fileHdrRawGrayscale f) →
      t.pos = s.pos ∧ t.hdr = s.hdr ∧ t.draws = s.draws)

/-- 10 R21 to R23, 40 R132: no command but CONSTRUCT and CREAD (its header rows with it) writes `WIDTH`, `HEIGHT` or
`BPP`. -/
def Obligations.OnlyConstructAndCreadWriteTheDescriptor : Prop :=
  ∀ (i : Instr) (s t : State), exec i s = .next t → (∀ w h m, i ≠ .construct w h m) → i ≠ .cread →
    (∀ f, i ≠ .fileHdrRawTruecolor f) → (∀ f, i ≠ .fileHdrRawGrayscale f) →
    t.buf.width = s.buf.width ∧ t.buf.height = s.buf.height ∧ t.buf.bpp = s.buf.bpp

/-- 10 R30, 60 R248: no command's result depends on the response of an earlier one. -/
def Obligations.ResponsesAreNotSticky : Prop :=
  ∀ (i : Instr) (s t : State) (r : Resp), s.AtRest → exec i s = .next t → t.phase = .idle →
    exec i { s with resp := r } = .next t

/-- 10 R32 to R34, 93 U18: `POS`, `HDR` and `LINEBUF` between commands influence nothing but themselves. -/
def Obligations.HiddenRegistersAreUnobservable : Prop :=
  ∀ (i : Instr) (s t t' : State) (p : Nat) (h : Bytes18) (l : List Byte) (d : Nat), s.AtRest →
    exec i s = .next t → exec i { s with pos := p, hdr := h, lineBuf := l, draws := d } = .next t' →
    { t with pos := 0, hdr := 0, lineBuf := [], draws := 0 } =
      { t' with pos := 0, hdr := 0, lineBuf := [], draws := 0 }

/-- 00 R7: no step changes a parameter. -/
def Obligations.NoStepChangesAParameter : Prop :=
  ∀ s t : State, step s = .next t → t.params = s.params
end

