-- ==== Sys2Proof/Laws/Encoding.lean ====
section
/-! SUPPORT. Byte order and field extraction: a list of bytes and its number determine each other, and a field of an
assembled word is the field put in. -/

namespace Sys2Proof

/-- Two neighbouring fields make one. -/
theorem extractLsb'_append_extractLsb' {n : Nat} (x : BitVec n) {s t a b : Nat} (h : t = s + a) :
    x.extractLsb' t b ++ x.extractLsb' s a = x.extractLsb' s (b + a) := by
  subst h
  ext i hi
  simp only [BitVec.getElem_append, BitVec.getElem_extractLsb']
  split_ifs
  · rfl
  · congr 1; omega

@[simp] theorem length_leBytes (n w : Nat) : (leBytes n w).length = n := by
  induction n generalizing w with
  | zero => rfl
  | succ n ih => simp [leBytes, ih]

theorem leNat_leBytes (n w : Nat) : leNat (leBytes n w) = w % 2 ^ (8 * n) := by
  induction n generalizing w with
  | zero => simp [leBytes, leNat, Nat.mod_one]
  | succ n ih =>
    rw [leBytes, leNat, ih, BitVec.toNat_ofNat, Nat.mul_add, Nat.mul_one, Nat.add_comm (8 * n) 8, Nat.pow_add,
      Nat.mod_mul]

/-- Byte `i` of a little-endian word of `8 * n` bits is its bits `8i+7:8i` (R80). -/
theorem getElem?_leBytes {n i : Nat} (w : Nat) (h : i < n) :
    (leBytes n w)[i]? = some (BitVec.ofNat 8 (w / 2 ^ (8 * i))) := by
  induction n generalizing w i with
  | zero => omega
  | succ n ih =>
    cases i with
    | zero => simp [leBytes]
    | succ i =>
      rw [leBytes, List.getElem?_cons_succ, ih _ (by omega), Nat.div_div_eq_div_mul, Nat.mul_add, Nat.mul_one,
        Nat.add_comm (8 * i) 8, Nat.pow_add]

theorem leNat_lt (bs : List Byte) : leNat bs < 2 ^ (8 * bs.length) := by
  induction bs with
  | nil => simp [leNat]
  | cons b bs ih =>
    have := b.isLt
    rw [leNat, List.length_cons, Nat.mul_add, Nat.mul_one, Nat.add_comm (8 * _) 8, Nat.pow_add]
    omega

theorem leBytes_leNat (bs : List Byte) : leBytes bs.length (leNat bs) = bs := by
  induction bs with
  | nil => rfl
  | cons b bs ih =>
    have := b.isLt
    rw [leNat, List.length_cons, leBytes, show (b.toNat + 256 * leNat bs) / 256 = leNat bs by omega, ih]
    congr 1
    apply BitVec.eq_of_toNat_eq
    rw [BitVec.toNat_ofNat]
    omega

/-- Byte `i` of the number of a byte sequence. -/
theorem leNat_div_mod (bs : List Byte) (i : Nat) : leNat bs / 2 ^ (8 * i) % 256 = (bs.getD i 0).toNat := by
  induction bs generalizing i with
  | nil => simp [leNat]
  | cons b bs ih =>
    have hb := b.isLt
    cases i with
    | zero => rw [leNat, List.getD_cons_zero, Nat.mul_zero, Nat.pow_zero, Nat.div_one]; omega
    | succ i =>
      rw [leNat, List.getD_cons_succ, ← ih i, Nat.mul_add, Nat.mul_one, Nat.add_comm (8 * i) 8, Nat.pow_add,
        ← Nat.div_div_eq_div_mul, show (b.toNat + 256 * leNat bs) / 2 ^ 8 = leNat bs by omega]

/-- A byte field of a header word is the byte of its byte sequence there (R92, R102). -/
theorem extractLsb'_leNat_byte {bs : List Byte} (h : bs.length = 18) (i : Nat) :
    (BitVec.ofNat 144 (leNat bs)).extractLsb' (8 * i) 8 = bs.getD i 0 := by
  apply BitVec.eq_of_toNat_eq
  have hlt := leNat_lt bs
  rw [h] at hlt
  rw [BitVec.extractLsb'_toNat, BitVec.toNat_ofNat, Nat.mod_eq_of_lt hlt, Nat.shiftRight_eq_div_pow, ← leNat_div_mod]

/-- A two-byte field of a header word has its low byte first (R96). -/
theorem extractLsb'_leNat_half {bs : List Byte} (h : bs.length = 18) (i : Nat) :
    (BitVec.ofNat 144 (leNat bs)).extractLsb' (8 * i) 16 = bs.getD (i + 1) 0 ++ bs.getD i 0 := by
  rw [← extractLsb'_leNat_byte h, ← extractLsb'_leNat_byte h]
  exact (extractLsb'_append_extractLsb' _ (show 8 * (i + 1) = 8 * i + 8 by omega)).symm

theorem decode_descriptorBytes (d : Desc) : decode (descriptorBytes d) = decodeDescriptor d := by
  rw [decode, if_pos (by simp [descriptorBytes]), descriptorBytes, leNat_leBytes]
  congr 1
  apply BitVec.eq_of_toNat_eq
  simp only [BitVec.toNat_ofNat]
  have := d.isLt
  omega

theorem decode_headerBytes (h : Bytes18) : decode (headerBytes h) = decodeHeader h := by
  rw [decode, if_neg (by simp [headerBytes]), if_pos (by simp [headerBytes]), headerBytes, leNat_leBytes]
  congr 1
  apply BitVec.eq_of_toNat_eq
  simp only [BitVec.toNat_ofNat]
  have := h.isLt
  omega

/-- A field above the lower part of a concatenation lies in its upper part. -/
theorem extractLsb'_append_of_le {m n : Nat} (x : BitVec m) (y : BitVec n) {s : Nat} (len : Nat) (h : n ≤ s) :
    (x ++ y).extractLsb' s len = x.extractLsb' (s - n) len := by
  ext i hi
  simp only [BitVec.getElem_extractLsb', BitVec.getLsbD_append]
  rw [if_neg (by omega)]
  congr 1
  omega

/-- The lower part of a concatenation. -/
theorem extractLsb'_append_low {m n : Nat} (x : BitVec m) (y : BitVec n) : (x ++ y).extractLsb' 0 n = y := by
  ext i hi
  simp only [BitVec.getElem_extractLsb', BitVec.getLsbD_append]
  rw [if_pos (by omega), Nat.zero_add, BitVec.getLsbD_eq_getElem hi]

/-- The whole word is its own field. -/
theorem extractLsb'_self {n : Nat} (x : BitVec n) : x.extractLsb' 0 n = x := by
  ext i hi
  simp only [BitVec.getElem_extractLsb', Nat.zero_add, BitVec.getLsbD_eq_getElem hi]

section Descriptor
variable (op m : Byte) (a b : Half) (c0 c1 c2 c3 : Byte) (off : Offset)

@[simp] theorem descOp_descriptor : descOp (descriptor op m a b c0 c1 c2 c3 off) = op := by
  unfold descOp descriptor
  simp (disch := omega) only [extractLsb'_append_low]
@[simp] theorem descM_descriptor : descM (descriptor op m a b c0 c1 c2 c3 off) = m := by
  unfold descM descriptor
  simp (disch := omega) only [extractLsb'_append_of_le, extractLsb'_append_low, Nat.reduceSub]
@[simp] theorem descA_descriptor : descA (descriptor op m a b c0 c1 c2 c3 off) = a := by
  unfold descA descriptor
  simp (disch := omega) only [extractLsb'_append_of_le, extractLsb'_append_low, Nat.reduceSub]
@[simp] theorem descB_descriptor : descB (descriptor op m a b c0 c1 c2 c3 off) = b := by
  unfold descB descriptor
  simp (disch := omega) only [extractLsb'_append_of_le, extractLsb'_append_low, Nat.reduceSub]
@[simp] theorem descC0_descriptor : descC0 (descriptor op m a b c0 c1 c2 c3 off) = c0 := by
  unfold descC0 descriptor
  simp (disch := omega) only [extractLsb'_append_of_le, extractLsb'_append_low, Nat.reduceSub]
@[simp] theorem descC1_descriptor : descC1 (descriptor op m a b c0 c1 c2 c3 off) = c1 := by
  unfold descC1 descriptor
  simp (disch := omega) only [extractLsb'_append_of_le, extractLsb'_append_low, Nat.reduceSub]
@[simp] theorem descC2_descriptor : descC2 (descriptor op m a b c0 c1 c2 c3 off) = c2 := by
  unfold descC2 descriptor
  simp (disch := omega) only [extractLsb'_append_of_le, extractLsb'_append_low, Nat.reduceSub]
@[simp] theorem descC3_descriptor : descC3 (descriptor op m a b c0 c1 c2 c3 off) = c3 := by
  unfold descC3 descriptor
  simp (disch := omega) only [extractLsb'_append_of_le, extractLsb'_append_low, Nat.reduceSub]
@[simp] theorem descOff_descriptor : descOff (descriptor op m a b c0 c1 c2 c3 off) = off := by
  unfold descOff descriptor
  simp (disch := omega) only [extractLsb'_append_of_le, extractLsb'_self, Nat.reduceSub]

end Descriptor

section Header
variable (code : Byte) (f : FileHeader)

@[simp] theorem headerType_headerWord : headerType (headerWord code f) = code := by
  unfold headerType headerWord
  simp (disch := omega) only [extractLsb'_append_of_le, extractLsb'_append_low, Nat.reduceSub]

@[simp] theorem headerFields_headerWord : headerFields (headerWord code f) = f := by
  unfold headerFields headerWord
  simp (disch := omega) only [extractLsb'_append_of_le, extractLsb'_append_low, extractLsb'_self, Nat.reduceSub]

end Header

/-- A header is its `datatypecode` and its other fields, no bit dropped (R92). -/
theorem headerWord_headerFields (h : Bytes18) : headerWord (headerType h) (headerFields h) = h := by
  unfold headerWord headerType headerFields
  rw [extractLsb'_append_extractLsb', extractLsb'_append_extractLsb', extractLsb'_append_extractLsb',
    extractLsb'_append_extractLsb', extractLsb'_append_extractLsb', extractLsb'_append_extractLsb',
    extractLsb'_append_extractLsb', extractLsb'_append_extractLsb', extractLsb'_append_extractLsb',
    extractLsb'_append_extractLsb', extractLsb'_append_extractLsb']
  · exact extractLsb'_self h
  all_goals rfl

end Sys2Proof
end

