-- ==== Sys2Proof/Laws/Memory.lean ====
section
/-! SUPPORT. The laws of pixel memory: every operation keeps the canonical form, and what a read gives after it. -/

namespace Sys2Proof.Machine

theorem Memory.wf_nil : Memory.wf [] := by simp [Memory.wf]

theorem Memory.wf_tail {c : Host.Cell} {m : Memory} (h : Memory.wf (c :: m)) : Memory.wf m :=
  ⟨(List.pairwise_cons.mp h.1).2, fun d hd => h.2 d (List.mem_cons_of_mem _ hd)⟩

theorem Memory.wf_cons {a : Nat} {b : Byte} {m : Memory} (hm : Memory.wf m) (hb : b ≠ Config.unlistedByte)
    (ha : ∀ c ∈ m, a < c.1) : Memory.wf ((a, b) :: m) :=
  ⟨List.pairwise_cons.mpr ⟨ha, hm.1⟩, by
    intro c hc
    rcases List.mem_cons.mp hc with rfl | hc
    exacts [hb, hm.2 c hc]⟩

/-- A write lists no offset but the written one anew. -/
theorem Memory.mem_writeByte {m : Memory} {k : Nat} {v : Byte} {c : Host.Cell}
    (h : c ∈ Memory.writeByte m k v) : c ∈ m ∨ c = (k, v) := by
  induction m with
  | nil =>
    simp only [Memory.writeByte] at h
    split at h <;> simp_all
  | cons d m ih =>
    obtain ⟨a, b⟩ := d
    simp only [Memory.writeByte] at h
    split_ifs at h <;> simp only [List.mem_cons] at h ⊢ <;> grind

theorem Memory.wf_writeByte {m : Memory} (h : Memory.wf m) (k : Nat) (v : Byte) :
    Memory.wf (Memory.writeByte m k v) := by
  induction m with
  | nil =>
    simp only [Memory.writeByte]
    split_ifs with hv
    · exact Memory.wf_nil
    · exact Memory.wf_cons Memory.wf_nil hv (by simp)
  | cons d m ih =>
    obtain ⟨a, b⟩ := d
    have hlt : ∀ c ∈ m, a < c.1 := (List.pairwise_cons.mp h.1).1
    have hm := Memory.wf_tail h
    have hb : b ≠ Config.unlistedByte := h.2 (a, b) (by simp)
    simp only [Memory.writeByte]
    split_ifs with hk hv hk' hv
    · exact h
    · refine Memory.wf_cons h hv ?_
      rintro c hc
      rcases List.mem_cons.mp hc with rfl | hc
      · exact hk
      · exact lt_trans hk (hlt c hc)
    · exact hm
    · exact Memory.wf_cons hm hv (hk' ▸ hlt)
    · refine Memory.wf_cons (ih hm) hb ?_
      intro c hc
      rcases Memory.mem_writeByte hc with hc | rfl
      · exact hlt c hc
      · exact lt_of_le_of_ne (not_lt.mp hk) (Ne.symm hk')

/-- An offset below every listed one reads as unlisted. -/
theorem Memory.readByte_of_lt {m : Memory} {k : Nat} (h : ∀ c ∈ m, k < c.1) :
    Memory.readByte m k = Config.unlistedByte := by
  induction m with
  | nil => rfl
  | cons d m ih =>
    obtain ⟨a, b⟩ := d
    have := h (a, b) (by simp)
    simp only [Memory.readByte, if_neg (Nat.ne_of_gt this)]
    exact ih fun c hc => h c (List.mem_cons_of_mem _ hc)

theorem Memory.readByte_writeByte_self {m : Memory} (h : Memory.wf m) (k : Nat) (v : Byte) :
    Memory.readByte (Memory.writeByte m k v) k = v := by
  induction m with
  | nil =>
    simp only [Memory.writeByte]
    split_ifs with hv <;> simp [Memory.readByte, hv]
  | cons d m ih =>
    obtain ⟨a, b⟩ := d
    have hlt : ∀ c ∈ m, a < c.1 := (List.pairwise_cons.mp h.1).1
    simp only [Memory.writeByte]
    split_ifs with hk hv hk' hv
    · rw [Memory.readByte_of_lt, hv]
      intro c hc
      rcases List.mem_cons.mp hc with rfl | hc
      · exact hk
      · exact lt_trans hk (hlt c hc)
    · simp [Memory.readByte]
    · rw [Memory.readByte_of_lt, hv]
      exact hk' ▸ hlt
    · simp [Memory.readByte]
    · simp only [Memory.readByte, if_neg (Ne.symm hk')]
      exact ih (Memory.wf_tail h)

theorem Memory.readByte_writeByte_ne (m : Memory) {k j : Nat} (v : Byte) (h : j ≠ k) :
    Memory.readByte (Memory.writeByte m k v) j = Memory.readByte m j := by
  induction m with
  | nil =>
    simp only [Memory.writeByte]
    split_ifs <;> simp [Memory.readByte, Ne.symm h]
  | cons d m ih =>
    obtain ⟨a, b⟩ := d
    simp only [Memory.writeByte]
    split_ifs with hk hv hk' hv
    · rfl
    · simp [Memory.readByte, Ne.symm h]
    · subst hk'
      simp [Memory.readByte, Ne.symm h]
    · subst hk'
      simp [Memory.readByte, Ne.symm h]
    · simp only [Memory.readByte, ih]

/-- Everything a write does: the written offset reads the byte, every other offset as before. -/
theorem Memory.readByte_writeByte {m : Memory} (h : Memory.wf m) (k j : Nat) (v : Byte) :
    Memory.readByte (Memory.writeByte m k v) j = if j = k then v else Memory.readByte m j := by
  split_ifs with hj
  · subst hj; exact Memory.readByte_writeByte_self h j v
  · exact Memory.readByte_writeByte_ne m v hj

theorem Memory.wf_writeBytes {m : Memory} (h : Memory.wf m) (k : Nat) (vs : List Byte) :
    Memory.wf (Memory.writeBytes m k vs) := by
  induction vs generalizing m k with
  | nil => exact h
  | cons v vs ih => exact ih (Memory.wf_writeByte h k v) (k + 1)

/-- Everything a write of several bytes does. -/
theorem Memory.readByte_writeBytes {m : Memory} (h : Memory.wf m) (k j : Nat) (vs : List Byte) :
    Memory.readByte (Memory.writeBytes m k vs) j =
      if k ≤ j ∧ j < k + vs.length then vs.getD (j - k) 0 else Memory.readByte m j := by
  induction vs generalizing m k with
  | nil => simp only [Memory.writeBytes, List.length_nil]; rw [if_neg (by omega)]
  | cons v vs ih =>
    rw [Memory.writeBytes, ih (Memory.wf_writeByte h k v), Memory.readByte_writeByte h]
    by_cases hj : j = k
    · subst hj
      simp
    · by_cases hin : k + 1 ≤ j ∧ j < k + 1 + vs.length
      · have : j - k = j - (k + 1) + 1 := by omega
        rw [if_pos hin, if_pos ⟨by omega, by simp only [List.length_cons]; omega⟩, this, List.getD_cons_succ]
      · rw [if_neg hin, if_neg hj, if_neg (by simp only [List.length_cons]; omega)]

/-- A write of several bytes lists no offset outside them anew. -/
theorem Memory.mem_writeBytes {m : Memory} {k : Nat} {vs : List Byte} {c : Host.Cell}
    (h : c ∈ Memory.writeBytes m k vs) : c ∈ m ∨ k ≤ c.1 ∧ c.1 < k + vs.length := by
  induction vs generalizing m k with
  | nil => exact .inl h
  | cons v vs ih =>
    simp only [List.length_cons]
    rcases ih h with h | h
    · rcases Memory.mem_writeByte h with h | rfl
      · exact .inl h
      · exact .inr ⟨le_refl _, by omega⟩
    · exact .inr ⟨by omega, by omega⟩

@[simp] theorem Memory.length_readBytes (m : Memory) (k n : Nat) : (Memory.readBytes m k n).length = n := by
  induction n generalizing k with
  | zero => rfl
  | succ n ih => simp [Memory.readBytes, ih]

theorem Memory.getD_readBytes (m : Memory) (k n i : Nat) (h : i < n) :
    (Memory.readBytes m k n).getD i 0 = Memory.readByte m (k + i) := by
  induction n generalizing k i with
  | zero => omega
  | succ n ih =>
    cases i with
    | zero => simp [Memory.readBytes]
    | succ i => rw [Memory.readBytes, List.getD_cons_succ, ih _ _ (by omega)]; congr 1; omega

theorem Memory.le_of_mem_ofBytes {k : Nat} {vs : List Byte} {c : Host.Cell} (h : c ∈ Memory.ofBytes k vs) :
    k ≤ c.1 ∧ c.1 < k + vs.length := by
  induction vs generalizing k with
  | nil => simp [Memory.ofBytes] at h
  | cons v vs ih =>
    simp only [Memory.ofBytes, List.length_cons] at h ⊢
    split_ifs at h
    · have := ih h; omega
    · rcases List.mem_cons.mp h with rfl | h
      · simp
      · have := ih h; omega

theorem Memory.wf_ofBytes (k : Nat) (vs : List Byte) : Memory.wf (Memory.ofBytes k vs) := by
  induction vs generalizing k with
  | nil => exact Memory.wf_nil
  | cons v vs ih =>
    simp only [Memory.ofBytes]
    split_ifs with hv
    · exact ih _
    · exact Memory.wf_cons (ih _) hv fun c hc => (Memory.le_of_mem_ofBytes hc).1

/-- What content made from bytes reads as. -/
theorem Memory.readByte_ofBytes (k j : Nat) (vs : List Byte) :
    Memory.readByte (Memory.ofBytes k vs) j = if k ≤ j then vs.getD (j - k) Config.unlistedByte else
      Config.unlistedByte := by
  induction vs generalizing k with
  | nil => simp [Memory.ofBytes, Memory.readByte]
  | cons v vs ih =>
    have hsucc : ∀ n, k < n → (v :: vs).getD (n - k) Config.unlistedByte =
        vs.getD (n - (k + 1)) Config.unlistedByte := by
      intro n hn
      rw [show n - k = n - (k + 1) + 1 by omega, List.getD_cons_succ]
    simp only [Memory.ofBytes]
    split_ifs with hv hk hk
    · rw [ih]
      rcases Nat.eq_or_lt_of_le hk with rfl | hlt
      · rw [if_neg (by omega)]; simp [hv]
      · rw [if_pos (by omega), hsucc j hlt]
    · rw [ih, if_neg (by omega)]
    · simp only [Memory.readByte]
      rcases Nat.eq_or_lt_of_le hk with rfl | hlt
      · simp
      · rw [if_neg (by omega), ih, if_pos (by omega), hsucc j hlt]
    · simp only [Memory.readByte]
      rw [if_neg (by omega), ih, if_neg (by omega)]

theorem Memory.wf_remap (f : Nat → Nat) (m : Memory) : Memory.wf (Memory.remap f m) := by
  induction m with
  | nil => exact Memory.wf_nil
  | cons d m ih => exact Memory.wf_writeByte ih _ _

theorem Memory.mem_remap {f : Nat → Nat} {m : Memory} {c : Host.Cell} (h : c ∈ Memory.remap f m) :
    ∃ d ∈ m, c = (f d.1, d.2) := by
  induction m with
  | nil => simp [Memory.remap] at h
  | cons d m ih =>
    rcases Memory.mem_writeByte h with h | rfl
    · obtain ⟨e, he, rfl⟩ := ih h
      exact ⟨e, List.mem_cons_of_mem _ he, rfl⟩
    · exact ⟨d, List.mem_cons_self, rfl⟩

/-- Moving bytes along an involution: each offset reads what its partner read. -/
theorem Memory.readByte_remap {f : Nat → Nat} (hf : ∀ k, f (f k) = k) (m : Memory) (k : Nat) :
    Memory.readByte (Memory.remap f m) k = Memory.readByte m (f k) := by
  induction m with
  | nil => rfl
  | cons d m ih =>
    obtain ⟨a, b⟩ := d
    rw [Memory.remap, Memory.readByte_writeByte (Memory.wf_remap f m), ih]
    simp only [Memory.readByte]
    have : (k = f a) ↔ (a = f k) := ⟨fun h => by rw [h, hf], fun h => by rw [h, hf]⟩
    simp only [this]

/-- Two canonical contents that read alike are equal. -/
theorem Memory.ext_of_wf {m n : Memory} (hm : Memory.wf m) (hn : Memory.wf n)
    (h : ∀ k, Memory.readByte m k = Memory.readByte n k) : m = n := by
  induction m generalizing n with
  | nil =>
    cases n with
    | nil => rfl
    | cons d n =>
      obtain ⟨a, b⟩ := d
      have h1 := h a
      simp only [Memory.readByte, if_pos] at h1
      exact absurd h1.symm (hn.2 (a, b) (by simp))
  | cons d m ih =>
    obtain ⟨a, b⟩ := d
    have hb : b ≠ Config.unlistedByte := hm.2 (a, b) (by simp)
    have hlt : ∀ c ∈ m, a < c.1 := (List.pairwise_cons.mp hm.1).1
    cases n with
    | nil =>
      have h1 := h a
      simp only [Memory.readByte, if_pos] at h1
      exact absurd h1 hb
    | cons e n =>
      obtain ⟨a', b'⟩ := e
      have hb' : b' ≠ Config.unlistedByte := hn.2 (a', b') (by simp)
      have hlt' : ∀ c ∈ n, a' < c.1 := (List.pairwise_cons.mp hn.1).1
      have key : ∀ k, (if a = k then b else Memory.readByte m k) = if a' = k then b' else Memory.readByte n k := h
      have haa : a = a' := by
        rcases Nat.lt_trichotomy a a' with hl | he | hl
        · have h1 := key a
          rw [if_pos rfl, if_neg (by omega), Memory.readByte_of_lt (fun c hc => lt_trans hl (hlt' c hc))] at h1
          exact absurd h1 hb
        · exact he
        · have h1 := key a'
          rw [if_pos rfl, if_neg (by omega), Memory.readByte_of_lt (fun c hc => lt_trans hl (hlt c hc))] at h1
          exact absurd h1.symm hb'
      subst haa
      have hbb : b = b' := by simpa using key a
      subst hbb
      congr 1
      refine ih (Memory.wf_tail hm) (Memory.wf_tail hn) fun k => ?_
      have h1 := key k
      by_cases hk : a = k
      · subst hk
        rw [Memory.readByte_of_lt hlt, Memory.readByte_of_lt hlt']
      · simpa [hk] using h1

end Sys2Proof.Machine
end

