-- ==== Sys2Proof/Laws/Flip.lean ====
section
/-! SUPPORT. Offsets and pixels determine each other, the mirrors move pixels as 41_flip_ops says, and flipping keeps a
buffer well formed. -/

namespace Sys2Proof.Machine

theorem bppBytes_pos (b : Bpp) : 0 < bppBytes b := by cases b <;> decide

theorem bppBytes_le (b : Bpp) : bppBytes b ≤ 4 := by cases b <;> decide

section Offsets
variable {b : Buffer} {i j c : Nat}

/-- A pixel's byte lies in its row at its column (R52). -/
theorem pixelOff_add (b : Buffer) (i j c : Nat) :
    pixelOff b i j + c = j * rowLen b + (i * bppBytes b.bpp + c) := by
  simp only [pixelOff, rowLen]; ring

theorem bufLen_eq (b : Buffer) : bufLen b = b.height.toNat * rowLen b := by
  simp only [bufLen, rowLen]; ring

theorem column_lt_rowLen (hi : i < b.width.toNat) (hc : c < bppBytes b.bpp) :
    i * bppBytes b.bpp + c < rowLen b := by
  simp only [rowLen]; nlinarith

theorem pixelOff_lt (hi : i < b.width.toNat) (hj : j < b.height.toNat) (hc : c < bppBytes b.bpp) :
    pixelOff b i j + c < bufLen b := by
  rw [pixelOff_add, bufLen_eq]
  have := column_lt_rowLen hi hc
  nlinarith

theorem pixelOff_div_rowLen (hi : i < b.width.toNat) (hc : c < bppBytes b.bpp) :
    (pixelOff b i j + c) / rowLen b = j := by
  have := column_lt_rowLen hi hc
  rw [pixelOff_add, Nat.add_comm, Nat.add_mul_div_right _ _ (by omega), Nat.div_eq_of_lt this, Nat.zero_add]

theorem pixelOff_mod_rowLen (hi : i < b.width.toNat) (hc : c < bppBytes b.bpp) :
    (pixelOff b i j + c) % rowLen b = i * bppBytes b.bpp + c := by
  rw [pixelOff_add, Nat.mul_add_mod_self_right, Nat.mod_eq_of_lt (column_lt_rowLen hi hc)]

/-- Every offset of the buffer is a byte of a pixel (R52, R124). -/
theorem exists_pixel {k : Nat} (hk : k < bufLen b) :
    ∃ i j c, i < b.width.toNat ∧ j < b.height.toNat ∧ c < bppBytes b.bpp ∧ k = pixelOff b i j + c := by
  have hp := bppBytes_pos b.bpp
  have hr : 0 < rowLen b := by
    rcases Nat.eq_zero_or_pos (rowLen b) with h | h
    · rw [bufLen_eq, h] at hk; omega
    · exact h
  refine ⟨k % rowLen b / bppBytes b.bpp, k / rowLen b, k % rowLen b % bppBytes b.bpp, ?_, ?_, Nat.mod_lt _ hp, ?_⟩
  · exact Nat.div_lt_of_lt_mul (by rw [Nat.mul_comm]; exact Nat.mod_lt _ hr)
  · exact Nat.div_lt_of_lt_mul (by rw [Nat.mul_comm, ← bufLen_eq]; exact hk)
  · rw [pixelOff_add]
    have h1 := Nat.div_add_mod k (rowLen b)
    have h2 := Nat.div_add_mod (k % rowLen b) (bppBytes b.bpp)
    rw [Nat.mul_comm] at h1 h2
    omega

/-- The left-right mirror takes a pixel to the mirrored column (R150). -/
theorem mirrorColumn_pixel (hi : i < b.width.toNat) (hj : j < b.height.toNat) (hc : c < bppBytes b.bpp) :
    mirrorColumn b (pixelOff b i j + c) = pixelOff b (b.width.toNat - 1 - i) j + c := by
  have hp := bppBytes_pos b.bpp
  simp only [mirrorColumn, if_pos (pixelOff_lt hi hj hc), pixelOff_div_rowLen hi hc, pixelOff_mod_rowLen hi hc]
  rw [Nat.add_comm (i * bppBytes b.bpp) c, Nat.add_mul_div_right _ _ hp, Nat.div_eq_of_lt hc, Nat.zero_add,
    Nat.add_mul_mod_self_right, Nat.mod_eq_of_lt hc, pixelOff_add]
  omega

/-- The top-bottom mirror takes a pixel to the mirrored row (R151). -/
theorem mirrorRow_pixel (hi : i < b.width.toNat) (hj : j < b.height.toNat) (hc : c < bppBytes b.bpp) :
    mirrorRow b (pixelOff b i j + c) = pixelOff b i (b.height.toNat - 1 - j) + c := by
  simp only [mirrorRow, if_pos (pixelOff_lt hi hj hc), pixelOff_div_rowLen hi hc, pixelOff_mod_rowLen hi hc]
  rw [pixelOff_add]

end Offsets

theorem mirrorColumn_of_le {b : Buffer} {k : Nat} (h : bufLen b ≤ k) : mirrorColumn b k = k := by
  simp only [mirrorColumn, if_neg (not_lt.mpr h)]

theorem mirrorRow_of_le {b : Buffer} {k : Nat} (h : bufLen b ≤ k) : mirrorRow b k = k := by
  simp only [mirrorRow, if_neg (not_lt.mpr h)]

theorem mirrorColumn_lt {b : Buffer} {k : Nat} (h : k < bufLen b) : mirrorColumn b k < bufLen b := by
  obtain ⟨i, j, c, hi, hj, hc, rfl⟩ := exists_pixel h
  rw [mirrorColumn_pixel hi hj hc]
  exact pixelOff_lt (by omega) hj hc

theorem mirrorRow_lt {b : Buffer} {k : Nat} (h : k < bufLen b) : mirrorRow b k < bufLen b := by
  obtain ⟨i, j, c, hi, hj, hc, rfl⟩ := exists_pixel h
  rw [mirrorRow_pixel hi hj hc]
  exact pixelOff_lt hi (by omega) hc

theorem mirrorColumn_mirrorColumn (b : Buffer) (k : Nat) : mirrorColumn b (mirrorColumn b k) = k := by
  rcases Nat.lt_or_ge k (bufLen b) with h | h
  · obtain ⟨i, j, c, hi, hj, hc, rfl⟩ := exists_pixel h
    rw [mirrorColumn_pixel hi hj hc, mirrorColumn_pixel (by omega) hj hc]
    congr 2
    omega
  · rw [mirrorColumn_of_le h, mirrorColumn_of_le h]

theorem mirrorRow_mirrorRow (b : Buffer) (k : Nat) : mirrorRow b (mirrorRow b k) = k := by
  rcases Nat.lt_or_ge k (bufLen b) with h | h
  · obtain ⟨i, j, c, hi, hj, hc, rfl⟩ := exists_pixel h
    rw [mirrorRow_pixel hi hj hc, mirrorRow_pixel hi (by omega) hc]
    congr 2
    omega
  · rw [mirrorRow_of_le h, mirrorRow_of_le h]

/-- Each byte of a left-right mirrored buffer is the byte its offset's mirror held. -/
theorem readByte_flipH (b : Buffer) (k : Nat) :
    Memory.readByte (flipH b).pix k = Memory.readByte b.pix (mirrorColumn b k) :=
  Memory.readByte_remap (mirrorColumn_mirrorColumn b) b.pix k

/-- Each byte of a top-bottom mirrored buffer is the byte its offset's mirror held. -/
theorem readByte_flipV (b : Buffer) (k : Nat) :
    Memory.readByte (flipV b).pix k = Memory.readByte b.pix (mirrorRow b k) :=
  Memory.readByte_remap (mirrorRow_mirrorRow b) b.pix k

@[simp] theorem flipH_width (b : Buffer) : (flipH b).width = b.width := rfl
@[simp] theorem flipH_height (b : Buffer) : (flipH b).height = b.height := rfl
@[simp] theorem flipH_bpp (b : Buffer) : (flipH b).bpp = b.bpp := rfl
@[simp] theorem bufLen_flipH (b : Buffer) : bufLen (flipH b) = bufLen b := rfl
@[simp] theorem flipV_width (b : Buffer) : (flipV b).width = b.width := rfl
@[simp] theorem flipV_height (b : Buffer) : (flipV b).height = b.height := rfl
@[simp] theorem flipV_bpp (b : Buffer) : (flipV b).bpp = b.bpp := rfl
@[simp] theorem bufLen_flipV (b : Buffer) : bufLen (flipV b) = bufLen b := rfl

theorem flipH_wf {p : Params} {b : Buffer} (h : Buffer.Wf p b) : Buffer.Wf p (flipH b) := by
  obtain ⟨-, hlt, hw, hh, hf⟩ := h
  refine ⟨Memory.wf_remap _ _, fun c hc => ?_, hw, hh, hf⟩
  obtain ⟨d, hd, rfl⟩ := Memory.mem_remap hc
  exact mirrorColumn_lt (hlt d hd)

theorem flipV_wf {p : Params} {b : Buffer} (h : Buffer.Wf p b) : Buffer.Wf p (flipV b) := by
  obtain ⟨-, hlt, hw, hh, hf⟩ := h
  refine ⟨Memory.wf_remap _ _, fun c hc => ?_, hw, hh, hf⟩
  obtain ⟨d, hd, rfl⟩ := Memory.mem_remap hc
  exact mirrorRow_lt (hlt d hd)

end Sys2Proof.Machine
end

