-- ==== Sys2Proof/Laws/State.lean ====
section
/-! SUPPORT. What each shared update of the state does to each field, so that no later proof unfolds a record update. -/

namespace Sys2Proof.Machine

section Finish
variable (r : Resp) (s : State)

@[simp] theorem finish_buf : (finish r s).buf = s.buf := rfl
@[simp] theorem finish_resp : (finish r s).resp = r := rfl
@[simp] theorem finish_phase : (finish r s).phase = .idle := rfl
@[simp] theorem finish_lineBuf : (finish r s).lineBuf = s.lineBuf := rfl
@[simp] theorem finish_nb : (finish r s).nb = none := rfl
@[simp] theorem finish_srcOpen : (finish r s).srcOpen = false := rfl
@[simp] theorem finish_dstOpen : (finish r s).dstOpen = false := rfl
@[simp] theorem finish_port : (finish r s).port = s.port := rfl
@[simp] theorem finish_source : (finish r s).source = s.source := rfl
@[simp] theorem finish_sink : (finish r s).sink = s.sink := rfl
@[simp] theorem finish_out : (finish r s).out = none := rfl
@[simp] theorem finish_outs : (finish r s).outs = s.outs ++ s.out.toList := rfl
@[simp] theorem finish_resetPin : (finish r s).resetPin = s.resetPin := rfl
@[simp] theorem finish_params : (finish r s).params = s.params := rfl

/-- A command that holds no stream leaves `POS`, `HDR` and the draws alone. -/
theorem finish_hidden_of_closed (h : s.srcOpen = false) (h' : s.dstOpen = false) :
    (finish r s).pos = s.pos ∧ (finish r s).hdr = s.hdr ∧ (finish r s).draws = s.draws := by
  simp [finish, h, h']

/-- A codec command leaves free values in `POS` and `HDR`. -/
theorem finish_hidden_of_open (h : s.srcOpen = true ∨ s.dstOpen = true) :
    (finish r s).pos = Config.freePos s.draws ∧ (finish r s).hdr = Config.freeHdr s.draws ∧
      (finish r s).draws = s.draws + 1 := by
  rcases h with h | h <;> simp [finish, h]

end Finish

@[simp] theorem complete_eq (r : Resp) (s : State) : complete r s = finish r s := rfl
@[simp] theorem raise_eq (e : ErrCode) (s : State) : raise e s = finish (respError e) s := rfl

section SinkTake
variable (v : List Byte) (s : State)

@[simp] theorem sinkTake_buf : (sinkTake v s).buf = s.buf := rfl
@[simp] theorem sinkTake_resp : (sinkTake v s).resp = s.resp := rfl
@[simp] theorem sinkTake_phase : (sinkTake v s).phase = s.phase := rfl
@[simp] theorem sinkTake_pos : (sinkTake v s).pos = s.pos := rfl
@[simp] theorem sinkTake_hdr : (sinkTake v s).hdr = s.hdr := rfl
@[simp] theorem sinkTake_lineBuf : (sinkTake v s).lineBuf = s.lineBuf := rfl
@[simp] theorem sinkTake_nb : (sinkTake v s).nb = s.nb := rfl
@[simp] theorem sinkTake_srcOpen : (sinkTake v s).srcOpen = s.srcOpen := rfl
@[simp] theorem sinkTake_dstOpen : (sinkTake v s).dstOpen = s.dstOpen := rfl
@[simp] theorem sinkTake_port : (sinkTake v s).port = s.port := rfl
@[simp] theorem sinkTake_source : (sinkTake v s).source = s.source := rfl
@[simp] theorem sinkTake_sink : (sinkTake v s).sink = s.sink := rfl
@[simp] theorem sinkTake_out : (sinkTake v s).out = s.out.map (· ++ v) := rfl
@[simp] theorem sinkTake_outs : (sinkTake v s).outs = s.outs := rfl
@[simp] theorem sinkTake_resetPin : (sinkTake v s).resetPin = s.resetPin := rfl
@[simp] theorem sinkTake_params : (sinkTake v s).params = s.params := rfl
@[simp] theorem sinkTake_draws : (sinkTake v s).draws = s.draws := rfl

end SinkTake

section Accept
variable (r : Request) (rest : List Request) (s : State)

@[simp] theorem accept_buf : (accept r rest s).buf = s.buf := rfl
@[simp] theorem accept_resp : (accept r rest s).resp = s.resp := rfl
@[simp] theorem accept_phase : (accept r rest s).phase = s.phase := rfl
@[simp] theorem accept_pos : (accept r rest s).pos = s.pos := rfl
@[simp] theorem accept_hdr : (accept r rest s).hdr = s.hdr := rfl
@[simp] theorem accept_lineBuf : (accept r rest s).lineBuf = s.lineBuf := rfl
@[simp] theorem accept_nb : (accept r rest s).nb = s.nb := rfl
@[simp] theorem accept_srcOpen : (accept r rest s).srcOpen = s.srcOpen := rfl
@[simp] theorem accept_dstOpen : (accept r rest s).dstOpen = s.dstOpen := rfl
@[simp] theorem accept_port : (accept r rest s).port = rest := rfl
@[simp] theorem accept_source : (accept r rest s).source = r.source := rfl
@[simp] theorem accept_sink : (accept r rest s).sink = r.sink := rfl
@[simp] theorem accept_out : (accept r rest s).out = s.out := rfl
@[simp] theorem accept_outs : (accept r rest s).outs = s.outs := rfl
@[simp] theorem accept_resetPin : (accept r rest s).resetPin = s.resetPin := rfl
@[simp] theorem accept_params : (accept r rest s).params = s.params := rfl
@[simp] theorem accept_draws : (accept r rest s).draws = s.draws := rfl

end Accept

section ResetEvent
variable (s : State)

@[simp] theorem resetEvent_buf :
    (resetEvent s).buf = { width := 0, height := 0, bpp := Config.resetBpp, pix := [] } := rfl
@[simp] theorem resetEvent_resp : (resetEvent s).resp = {} := rfl
@[simp] theorem resetEvent_phase : (resetEvent s).phase = .idle := rfl
@[simp] theorem resetEvent_nb : (resetEvent s).nb = none := rfl
@[simp] theorem resetEvent_srcOpen : (resetEvent s).srcOpen = false := rfl
@[simp] theorem resetEvent_dstOpen : (resetEvent s).dstOpen = false := rfl
@[simp] theorem resetEvent_port : (resetEvent s).port = s.port := rfl
@[simp] theorem resetEvent_out : (resetEvent s).out = none := rfl
@[simp] theorem resetEvent_outs : (resetEvent s).outs = s.outs ++ s.out.toList := rfl
@[simp] theorem resetEvent_resetPin : (resetEvent s).resetPin = false := rfl
@[simp] theorem resetEvent_params : (resetEvent s).params = s.params := rfl

end ResetEvent

end Sys2Proof.Machine
end

