-- ==== Sys2Proof/Laws/Ops.lean ====
section
/-! SUPPORT. What each shared operation can do, said once: ending a command, the stream primitives, operand forms, and
that every instruction answers a next state. -/

namespace Sys2Proof.Machine

/-- Ending a command that holds no stream writes `RESP` and nothing else. -/
theorem finish_of_atRest {s : State} (r : Resp) (h : s.AtRest) : finish r s = { s with resp := r } := by
  obtain ⟨hp, hs, hd, hn, ho⟩ := h
  cases s
  simp_all [finish]

/-- Ending a command leaves the machine at rest. -/
theorem atRest_finish (r : Resp) (s : State) : (finish r s).AtRest := ⟨rfl, rfl, rfl, rfl, rfl⟩

theorem atRest_accept {r : Request} {rest : List Request} {s : State} (h : s.AtRest) :
    (accept r rest s).AtRest := h

/-- What a read gives: the bytes asked for, in order; or it is short on a stream that has ended or is absent; or it
waits on one that has stopped answering (R57, R267). -/
theorem srcRead_cases (src : Source) (pos n : Nat) :
    (∃ S, (src = .stream S ∨ src = .stalling S) ∧ pos + n ≤ S.length ∧
        srcRead src pos n = .complete ((S.drop pos).take n)) ∨
      ((src = .absent ∨ ∃ S, src = .stream S ∧ S.length < pos + n) ∧ srcRead src pos n = .short) ∨
      ((∃ S, src = .stalling S ∧ S.length < pos + n) ∧ srcRead src pos n = .waits) := by
  cases src with
  | absent => exact .inr (.inl ⟨.inl rfl, rfl⟩)
  | stream S =>
    by_cases h : pos + n ≤ S.length
    · exact .inl ⟨S, .inl rfl, h, by simp [srcRead, h]⟩
    · exact .inr (.inl ⟨.inr ⟨S, rfl, by omega⟩, by simp [srcRead, h]⟩)
  | stalling S =>
    by_cases h : pos + n ≤ S.length
    · exact .inl ⟨S, .inr rfl, h, by simp [srcRead, h]⟩
    · exact .inr (.inr ⟨⟨S, rfl, by omega⟩, by simp [srcRead, h]⟩)

/-- A complete read is as long as was asked. -/
theorem length_of_srcRead {src : Source} {pos n : Nat} {bs : List Byte} (h : srcRead src pos n = .complete bs) :
    bs.length = n := by
  rcases srcRead_cases src pos n with ⟨S, -, hle, he⟩ | ⟨-, he⟩ | ⟨-, he⟩ <;> rw [he] at h
  · obtain rfl := ReadResult.complete.inj h
    simp only [List.length_take, List.length_drop]
    omega
  · exact absurd h (by simp)
  · exact absurd h (by simp)

/-- A write changes `OUT` and `POS` alone. -/
theorem dstWrite_frame (start : Nat) (v : List Byte) (s : State) :
    ∃ o p, (dstWrite start v s).2 = { s with out := o, pos := p } := by
  unfold dstWrite
  dsimp only
  split
  · exact ⟨s.out, s.pos, rfl⟩
  · exact ⟨_, _, rfl⟩
  · split
    · exact ⟨_, _, rfl⟩
    · exact ⟨_, s.pos, rfl⟩
  · split
    · exact ⟨_, _, rfl⟩
    · exact ⟨_, _, rfl⟩

/-- A write keeps a sink open or shut. -/
theorem isSome_out_dstWrite (start : Nat) (v : List Byte) (s : State) :
    (dstWrite start v s).2.out.isSome = s.out.isSome := by
  unfold dstWrite
  dsimp only
  split
  · rfl
  · simp
  · split <;> simp
  · split <;> simp

/-- A first write to a sink of capacity `cap` (R59). -/
theorem dstWrite_takes {start : Nat} {v o : List Byte} {s : State} {cap : Nat} (hs : s.sink = .takes (some cap))
    (hp : s.pos = start) (ho : s.out = some o) :
    dstWrite start v s =
      if start + v.length ≤ cap then (.complete, { s with out := some (o ++ v), pos := start + v.length })
      else (.failed, { s with out := some (o ++ v.take (cap - start)) }) := by
  subst hp
  unfold dstWrite
  simp only [Nat.sub_self, List.drop_zero, hs]
  split <;> simp [sinkTake, ho, hs]

/-- A first write to an unbounded sink (R59). -/
theorem dstWrite_unbounded {start : Nat} {v o : List Byte} {s : State} (hs : s.sink = .takes none)
    (hp : s.pos = start) (ho : s.out = some o) :
    dstWrite start v s = (.complete, { s with out := some (o ++ v), pos := start + v.length }) := by
  subst hp
  unfold dstWrite
  simp [hs, sinkTake, ho]

/-- The legal counts, and no other byte (R87). -/
theorem bppOfByte_eq_some {m : Byte} {b : Bpp} : bppOfByte m = some b ↔ m = BitVec.ofNat 8 (bppBytes b) := by
  constructor
  · intro h
    unfold bppOfByte at h
    split at h
    all_goals first
      | (obtain rfl := Option.some.inj h; exact BitVec.eq_of_toNat_eq (by simpa [bppBytes] using ‹_›))
      | exact absurd h (by simp)
  · rintro rfl
    cases b <;> rfl

theorem bppOfByte_eq_none {m : Byte} : bppOfByte m = none ↔ legalCount m = false := by
  rcases hm : bppOfByte m with _ | b
  · refine iff_of_true rfl (Bool.eq_false_iff.mpr fun hl => ?_)
    simp only [legalCount, Bool.or_eq_true, beq_iff_eq] at hl
    rcases hl with (rfl | rfl) | rfl <;> exact absurd hm (by decide)
  · obtain rfl := bppOfByte_eq_some.mp hm
    cases b <;> decide

/-- A buffer's shape from a header: both dimensions positive, the depth legal, no byte stored. -/
theorem headerBuffer_eq_some {h : Bytes18} {b : Buffer} (e : headerBuffer h = some b) :
    0 < (headerFields h).width.toInt ∧ 0 < (headerFields h).height.toInt ∧
      bppOfBits (headerFields h).bitsperpixel = some b.bpp ∧ b.width = (headerFields h).width ∧
      b.height = (headerFields h).height ∧ b.pix = [] := by
  simp only [headerBuffer] at e
  split at e
  next hd =>
    split at e
    next hb =>
      obtain rfl := Option.some.inj e
      exact ⟨hd.1, hd.2, hb, rfl, rfl, rfl⟩
    · exact absurd e (by simp)
  · exact absurd e (by simp)

/-- A positive two's complement dimension is at most 32767 (R194). -/
theorem toNat_le_of_toInt_pos {d : Half} (h : 0 < d.toInt) : d.toNat ≤ Config.dimMax := by
  have := d.isLt
  rw [BitVec.toInt_eq_toNat_cond] at h
  simp only [Config.dimMax]
  split at h <;> omega

/-- What the capacity test says: `n` is at most `PIXMEM_BYTES`, or that is unbounded (R53). -/
theorem fits_eq_true {p : Params} {n : Nat} : fits p n = true ↔ ∀ cap ∈ p.pixmemBytes, n ≤ cap := by
  unfold fits; split <;> simp [*]

theorem fits_eq_false {p : Params} {n : Nat} : fits p n = false ↔ ∃ cap ∈ p.pixmemBytes, cap < n := by
  unfold fits; split <;> simp [*]

theorem fits_zero (p : Params) : fits p 0 = true := fits_eq_true.mpr fun _ _ => Nat.zero_le _

/-- An in-range access lies inside pixel memory (R51, R129). -/
theorem operandOff_add_le {b : Buffer} {x y : Half} (h : inRange b x y) :
    operandOff b x y + bppBytes b.bpp ≤ bufLen b := by
  obtain ⟨hx, hxw, hy, hyh⟩ := h
  have := pixelOff_lt (b := b) (i := x.toInt.toNat) (j := y.toInt.toNat) (c := bppBytes b.bpp - 1) (by omega) (by omega)
    (by have := bppBytes_pos b.bpp; omega)
  have := bppBytes_pos b.bpp
  unfold operandOff
  omega

/-- The reset state's pixel memory is in canonical form. -/
theorem reset_memory_wf : Memory.wf State.reset.buf.pix := Memory.wf_nil

/-- Every instruction answers a next state: FBRW has no event that stops it (R230). -/
theorem exec_answers_next (i : Instr) (s : State) : ∃ t, exec i s = .next t := by
  cases i <;> exact ⟨_, rfl⟩

/-- Every step answers a next state. -/
theorem step_answers_next (s : State) : ∃ t, step s = .next t := by
  unfold step
  split
  · exact exec_answers_next _ _
  · exact ⟨_, rfl⟩

end Sys2Proof.Machine
end

