-- ==== Sys2Proof/Laws/Codec.lean ====
section
/-! SUPPORT. Everything the codec's phases can do, said once: how CREAD ends from a header on, and how CWRITE ends from
any of its phases. -/

namespace Sys2Proof.Machine

/-- A loaded buffer brought to the canonical orientation by a header's two bits (43 R199). -/
def upright (h : Bytes18) (b : Buffer) : Buffer :=
  let v := if topOrigin h then b else flipV b
  if rightOrigin h then flipH v else v

@[simp] theorem upright_width (h : Bytes18) (b : Buffer) : (upright h b).width = b.width := by
  simp only [upright]; split_ifs <;> rfl
@[simp] theorem upright_height (h : Bytes18) (b : Buffer) : (upright h b).height = b.height := by
  simp only [upright]; split_ifs <;> rfl
@[simp] theorem upright_bpp (h : Bytes18) (b : Buffer) : (upright h b).bpp = b.bpp := by
  simp only [upright]; split_ifs <;> rfl

theorem upright_wf {p : Params} {h : Bytes18} {b : Buffer} (hb : Buffer.Wf p b) : Buffer.Wf p (upright h b) := by
  simp only [upright]
  split_ifs
  exacts [flipH_wf hb, flipH_wf (flipV_wf hb), hb, flipV_wf hb]

/-- A buffer loaded with as many bytes as it holds is well formed. -/
theorem loaded_wf {p : Params} {nb : Buffer} (hw : nb.width.toNat ≤ Config.dimMax)
    (hh : nb.height.toNat ≤ Config.dimMax) (hf : fits p (bufLen nb) = true) {bs : List Byte}
    (hl : bs.length ≤ bufLen nb) : Buffer.Wf p { nb with pix := Memory.ofBytes 0 bs } := by
  refine ⟨Memory.wf_ofBytes _ _, fun c hc => ?_, hw, hh, fits_eq_true.mp hf⟩
  have := (Memory.le_of_mem_ofBytes hc).2
  exact lt_of_lt_of_le this (by rw [Nat.zero_add]; exact hl)

/-- The orientation and commit phases on a loaded `NB`: the buffer is replaced and the command ends. -/
theorem creadOrientV_eq {s : State} {nb : Buffer} (h : s.nb = some nb) :
    creadOrientV s = finish respOk { s with buf := upright s.hdr nb, nb := some (upright s.hdr nb) } := by
  simp only [creadOrientV, creadOrientH, creadCommit, h, Option.map_some, complete_eq, upright]

/-- How `R_PAYLOAD` ends: truncated, waiting, or committed. -/
theorem creadPayload_cases {s : State} {nb : Buffer} (h : s.nb = some nb) :
    (srcRead s.source 18 (bufLen nb) = .short ∧ creadPayload s = finish (respError .payloadTruncated) s) ∨
    (srcRead s.source 18 (bufLen nb) = .waits ∧
      creadPayload s = { s with phase := .rPayload, pos := srcLength s.source }) ∨
    ∃ bytes, srcRead s.source 18 (bufLen nb) = .complete bytes ∧ bytes.length = bufLen nb ∧
      creadPayload s = finish respOk { s with
        pos := 18 + bufLen nb
        buf := upright s.hdr { nb with pix := Memory.ofBytes 0 bytes }
        nb := some (upright s.hdr { nb with pix := Memory.ofBytes 0 bytes }) } := by
  simp only [creadPayload, h, Config.headerLen]
  rcases hr : srcRead s.source 18 (bufLen nb) with bytes | _ | _
  · exact .inr (.inr ⟨bytes, rfl, length_of_srcRead hr, creadOrientV_eq rfl⟩)
  · exact .inl ⟨rfl, rfl⟩
  · exact .inr (.inl ⟨rfl, rfl⟩)

/-- How CREAD goes on from `R_VALIDATE`: refused before the payload, or at `R_PAYLOAD` with a well-formed empty `NB`
of the header's shape. -/
theorem creadValidate_cases (s : State) :
    (headerBuffer s.hdr = none ∧ creadValidate s = finish (respError .invalidHeaderValues) s) ∨
    ∃ nb, headerBuffer s.hdr = some nb ∧
      ((fits s.params (bufLen nb) = false ∧ creadValidate s = finish (respError .capacityExceeded) s) ∨
       (fits s.params (bufLen nb) = true ∧ ¬(headerType s.hdr = 2 ∨ headerType s.hdr = 3) ∧
          creadValidate s = finish (respError .unsupportedDataType) { s with nb := some nb }) ∨
       (fits s.params (bufLen nb) = true ∧ (headerType s.hdr = 2 ∨ headerType s.hdr = 3) ∧
          creadValidate s = creadPayload { s with nb := some nb })) := by
  unfold creadValidate
  rcases hb : headerBuffer s.hdr with _ | nb
  · exact .inl ⟨rfl, rfl⟩
  · refine .inr ⟨nb, rfl, ?_⟩
    simp only [creadAlloc]
    rcases hf : fits s.params (bufLen nb) with _ | _
    · exact .inl ⟨rfl, rfl⟩
    · simp only [if_true, creadDispatch]
      by_cases ht : headerType s.hdr = 2 ∨ headerType s.hdr = 3
      · exact .inr (.inr ⟨trivial, ht, by rw [if_pos ht]⟩)
      · exact .inr (.inl ⟨trivial, ht, by rw [if_neg ht]; rfl⟩)

/-- The empty `NB` of an accepted header that fits is well formed. -/
theorem headerBuffer_wf {p : Params} {h : Bytes18} {nb : Buffer} (e : headerBuffer h = some nb)
    (hf : fits p (bufLen nb) = true) : Buffer.Wf p nb := by
  obtain ⟨hw, hh, -, ew, eh, ep⟩ := headerBuffer_eq_some e
  refine ⟨ep ▸ Memory.wf_nil, by simp [ep], ?_, ?_, fits_eq_true.mp hf⟩
  · rw [ew]; exact toNat_le_of_toInt_pos hw
  · rw [eh]; exact toNat_le_of_toInt_pos hh

/-- How any phase of CWRITE ends: the command over, with success or an error, or waiting for its sink, in each case
after a change to `OUT` and `POS` alone, `OUT` present if it was. -/
inductive WriteEnds (s : State) : State → Prop where
  | success (o : Option (List Byte)) (p : Nat) : WriteEnds s (finish respOk { s with out := o, pos := p })
  | failure (e : ErrCode) (o : Option (List Byte)) (p : Nat) :
      WriteEnds s (finish (respError e) { s with out := o, pos := p })
  | waits (ph : Phase) (o : Option (List Byte)) (p : Nat) (hph : ph = .wHeader ∨ ph = .wPayload ∨ ph = .wFooter)
      (ho : o.isSome = s.out.isSome) : WriteEnds s { s with phase := ph, out := o, pos := p }

theorem cwriteFooter_ends (s : State) : WriteEnds s (cwriteFooter s) := by
  unfold cwriteFooter
  obtain ⟨o, p, hf⟩ := dstWrite_frame (Config.headerLen + bufLen s.buf) (footerBytes s.params) s
  have hs := isSome_out_dstWrite (Config.headerLen + bufLen s.buf) (footerBytes s.params) s
  rcases hd : dstWrite (Config.headerLen + bufLen s.buf) (footerBytes s.params) s with ⟨_ | _ | _, t⟩ <;>
    rw [hd] at hf hs <;> obtain rfl : t = _ := hf
  · exact .success o p
  · exact .failure _ o p
  · exact .waits .wFooter o p (.inr (.inr rfl)) hs

/-- A phase that follows a complete write ends as the phase does. -/
theorem WriteEnds.of_next {s u : State} {o : Option (List Byte)} {p : Nat} (ho : o.isSome = s.out.isSome)
    (h : WriteEnds { s with out := o, pos := p } u) : WriteEnds s u := by
  cases h with
  | success o' p' => exact .success o' p'
  | failure e o' p' => exact .failure e o' p'
  | waits ph o' p' hph ho' => exact .waits ph o' p' hph (ho'.trans ho)

theorem cwritePayload_ends (s : State) : WriteEnds s (cwritePayload s) := by
  unfold cwritePayload
  obtain ⟨o, p, hf⟩ := dstWrite_frame Config.headerLen (payloadBytes s.buf) s
  have hs := isSome_out_dstWrite Config.headerLen (payloadBytes s.buf) s
  rcases hd : dstWrite Config.headerLen (payloadBytes s.buf) s with ⟨_ | _ | _, t⟩ <;>
    rw [hd] at hf hs <;> obtain rfl : t = _ := hf
  · exact .of_next hs (cwriteFooter_ends _)
  · exact .failure _ o p
  · exact .waits .wPayload o p (.inr (.inl rfl)) hs

theorem cwriteHeader_ends (s : State) : WriteEnds s (cwriteHeader s) := by
  unfold cwriteHeader
  obtain ⟨o, p, hf⟩ := dstWrite_frame 0 (headerBytes s.hdr) s
  have hs := isSome_out_dstWrite 0 (headerBytes s.hdr) s
  rcases hd : dstWrite 0 (headerBytes s.hdr) s with ⟨_ | _ | _, t⟩ <;>
    rw [hd] at hf hs <;> obtain rfl : t = _ := hf
  · exact .of_next hs (cwritePayload_ends _)
  · exact .failure _ o p
  · exact .waits .wHeader o p (.inl rfl) hs

end Sys2Proof.Machine
end

