-- ==== Sys2Proof/Laws/PerInstr.lean ====
section
/-! SUPPORT. Statements made per instruction. `Shape`: an instruction's bytes have the length of its row and carry the
row's `match` in the row's masked byte (30_encoding R86, R88, R93, R102). -/

namespace Sys2Proof.Laws.Shape

/-- The masked byte of an instruction's row: its place and its value. -/
def rowByte : Instr → Nat × Byte
  | .construct _ _ _ => (0, 0x01)
  | .get _ _ => (0, 0x02)
  | .set _ _ _ _ _ _ _ => (0, 0x03)
  | .fliph => (0, 0x04)
  | .flipv => (0, 0x05)
  | .rawrd _ => (0, 0x06)
  | .rawwr _ _ => (0, 0x07)
  | .qw => (0, 0x08)
  | .qh => (0, 0x09)
  | .qbpp => (0, 0x0A)
  | .cwrite _ => (0, 0x10)
  | .cread => (0, 0x11)
  | .fileHdrRawTruecolor _ => (2, 0x02)
  | .fileHdrRawGrayscale _ => (2, 0x03)

/-- The length of an instruction's row in bytes. -/
def rowLength : Instr → Nat
  | .fileHdrRawTruecolor _ => 18
  | .fileHdrRawGrayscale _ => 18
  | _ => 16

def Statement (i : Instr) : Prop :=
  (encode i).length = rowLength i ∧ (encode i)[(rowByte i).1]? = some (rowByte i).2

/-- The low byte of a descriptor is its opcode. -/
theorem descriptorBytes_op (d : Desc) : (descriptorBytes d)[0]? = some (descOp d) := by
  rw [descriptorBytes, getElem?_leBytes _ (by omega)]
  simp [descOp, BitVec.extractLsb']

/-- Byte 2 of a header is its `datatypecode`. -/
theorem headerBytes_type (h : Bytes18) : (headerBytes h)[2]? = some (headerType h) := by
  rw [headerBytes, getElem?_leBytes _ (by omega)]
  simp [headerType, BitVec.extractLsb', Nat.shiftRight_eq_div_pow]

theorem construct (w h : Half) (m : Byte) : Statement (.construct w h m) :=
  ⟨length_leBytes _ _, (descriptorBytes_op _).trans (by rw [descOp_descriptor]; rfl)⟩
theorem get (x y : Half) : Statement (.get x y) :=
  ⟨length_leBytes _ _, (descriptorBytes_op _).trans (by rw [descOp_descriptor]; rfl)⟩
theorem set (x y : Half) (n c0 c1 c2 c3 : Byte) : Statement (.set x y n c0 c1 c2 c3) :=
  ⟨length_leBytes _ _, (descriptorBytes_op _).trans (by rw [descOp_descriptor]; rfl)⟩
theorem fliph : Statement .fliph :=
  ⟨length_leBytes _ _, (descriptorBytes_op _).trans (by rw [descOp_descriptor]; rfl)⟩
theorem flipv : Statement .flipv :=
  ⟨length_leBytes _ _, (descriptorBytes_op _).trans (by rw [descOp_descriptor]; rfl)⟩
theorem rawrd (off : Offset) : Statement (.rawrd off) :=
  ⟨length_leBytes _ _, (descriptorBytes_op _).trans (by rw [descOp_descriptor]; rfl)⟩
theorem rawwr (off : Offset) (b : Byte) : Statement (.rawwr off b) :=
  ⟨length_leBytes _ _, (descriptorBytes_op _).trans (by rw [descOp_descriptor]; rfl)⟩
theorem qw : Statement .qw :=
  ⟨length_leBytes _ _, (descriptorBytes_op _).trans (by rw [descOp_descriptor]; rfl)⟩
theorem qh : Statement .qh :=
  ⟨length_leBytes _ _, (descriptorBytes_op _).trans (by rw [descOp_descriptor]; rfl)⟩
theorem qbpp : Statement .qbpp :=
  ⟨length_leBytes _ _, (descriptorBytes_op _).trans (by rw [descOp_descriptor]; rfl)⟩
theorem cwrite (vf : Byte) : Statement (.cwrite vf) :=
  ⟨length_leBytes _ _, (descriptorBytes_op _).trans (by rw [descOp_descriptor]; rfl)⟩
theorem cread : Statement .cread :=
  ⟨length_leBytes _ _, (descriptorBytes_op _).trans (by rw [descOp_descriptor]; rfl)⟩
theorem fileHdrRawTruecolor (f : FileHeader) : Statement (.fileHdrRawTruecolor f) :=
  ⟨length_leBytes _ _, (headerBytes_type _).trans (by rw [headerType_headerWord]; rfl)⟩
theorem fileHdrRawGrayscale (f : FileHeader) : Statement (.fileHdrRawGrayscale f) :=
  ⟨length_leBytes _ _, (headerBytes_type _).trans (by rw [headerType_headerWord]; rfl)⟩

end Sys2Proof.Laws.Shape
end

