-- ==== Sys2Proof/Tests/Slice0.lean ====
section
/-! SUPPORT. Tests of the model against bytes and vectors the spec prints (30_encoding R103, 95_test_vectors), and for
each obligation with hypotheses a witness that meets them, each clause at a boundary of its range. -/

namespace Sys2Proof.Tests

open Sys2Proof Sys2Proof.Machine

/-! ## Decoding: words written out from 30_encoding R81, R86 and R92 -/

/-- 95 V1. -/
theorem test_decode_construct : decode [0x01, 0x03, 0, 0, 0x02, 0, 0x02, 0, 0, 0, 0, 0, 0, 0, 0, 0] =
    .ok (.construct 2 2 3) := by decide

/-- 30 R103. -/
theorem test_decode_get : decode [0x02, 0, 0, 0, 0xFF, 0xFF, 0x05, 0, 0, 0, 0, 0, 0, 0, 0, 0] =
    .ok (.get (-1) 5) := by decide

/-- 30 R81: every field of SET another value. -/
theorem test_decode_set : decode [0x03, 0x04, 0xEE, 0xEE, 0x34, 0x12, 0x78, 0x56, 1, 2, 3, 4, 9, 9, 9, 9] =
    .ok (.set 0x1234 0x5678 4 1 2 3 4) := by decide

theorem test_decode_fliph : decode [0x04, 0, 0, 0, 0, 0, 0, 0, 0, 0, 0, 0, 0, 0, 0, 0] = .ok .fliph := by decide

theorem test_decode_flipv : decode [0x05, 0, 0, 0, 0, 0, 0, 0, 0, 0, 0, 0, 0, 0, 0, 0] = .ok .flipv := by decide

/-- 30 R81: `OFF` is bits 127:96, low byte first. -/
theorem test_decode_rawrd : decode [0x06, 0, 0, 0, 0, 0, 0, 0, 0, 0, 0, 0, 0x04, 0x03, 0x02, 0x01] =
    .ok (.rawrd 0x01020304) := by decide

/-- 30 R103. -/
theorem test_decode_rawwr : decode [0x07, 0, 0, 0, 0, 0, 0, 0, 0x7F, 0, 0, 0, 0x45, 0x23, 0x01, 0x00] =
    .ok (.rawwr 0x00012345 0x7F) := by decide

theorem test_decode_qw : decode [0x08, 0, 0, 0, 0, 0, 0, 0, 0, 0, 0, 0, 0, 0, 0, 0] = .ok .qw := by decide

theorem test_decode_qh : decode [0x09, 0, 0, 0, 0, 0, 0, 0, 0, 0, 0, 0, 0, 0, 0, 0] = .ok .qh := by decide

theorem test_decode_qbpp : decode [0x0A, 0, 0, 0, 0, 0, 0, 0, 0, 0, 0, 0, 0, 0, 0, 0] = .ok .qbpp := by decide

/-- 30 R103. -/
theorem test_decode_cwrite : decode [0x10, 0x01, 0, 0, 0, 0, 0, 0, 0, 0, 0, 0, 0, 0, 0, 0] = .ok (.cwrite 1) := by
  decide

theorem test_decode_cread : decode [0x11, 0, 0, 0, 0, 0, 0, 0, 0, 0, 0, 0, 0, 0, 0, 0] = .ok .cread := by decide

/-- 30 R92: every field of the header another value, `datatypecode` 2. -/
theorem test_decode_header_truecolor :
    decode [1, 2, 2, 0x04, 0x03, 0x06, 0x05, 7, 0x09, 0x08, 0x0B, 0x0A, 0x0D, 0x0C, 0x0F, 0x0E, 0x18, 0x30] =
      .ok (.fileHdrRawTruecolor ⟨1, 2, 0x0304, 0x0506, 7, 0x0809, 0x0A0B, 0x0C0D, 0x0E0F, 0x18, 0x30⟩) := by decide

/-- 30 R92, R93: `datatypecode` 3. -/
theorem test_decode_header_grayscale :
    decode [0, 0, 3, 0, 0, 0, 0, 0, 0, 0, 0, 0, 0x03, 0, 0x02, 0, 0x08, 0x20] =
      .ok (.fileHdrRawGrayscale ⟨0, 0, 0, 0, 0, 0, 0, 3, 2, 8, 0x20⟩) := by decide

/-- 30 R87: the all-zero descriptor, the gaps' edges and 0xFF are illegal. -/
theorem test_decode_illegal_opcodes :
    ∀ op ∈ ([0x00, 0x0B, 0x0F, 0x12, 0xFF] : List Byte),
      decode (op :: List.replicate 15 0) = .error (.illegalCommand op.toNat) := by decide

/-- 30 R93: run-length and colour-map codes have no row. -/
theorem test_decode_unsupported_types :
    ∀ c ∈ ([1, 9, 10, 11, 32, 33] : List Byte),
      decode (0 :: 0 :: c :: List.replicate 15 0) = .error (.unsupportedDataType c.toNat) := by decide

/-! ## Legal operands: an ill-formed term for each check (30_encoding R87, R101) -/

theorem test_wf_construct : (Instr.construct 1 1 2).wf = false ∧ (Instr.construct 1 1 4).wf = true := by decide
theorem test_wf_set : (Instr.set 0 0 0x0B 0 0 0 0).wf = false ∧ (Instr.set 0 0 3 0 0 0 0).wf = true := by decide
theorem test_wf_cwrite : (Instr.cwrite 2).wf = false ∧ (Instr.cwrite 1).wf = true := by decide

/-- A header with the given width, height and depth. -/
def header (w h : Half) (bits desc : Byte) : FileHeader := ⟨0, 0, 0, 0, 0, 0, 0, w, h, bits, desc⟩

theorem test_wf_header_width : (Instr.fileHdrRawTruecolor (header 0 1 24 0)).wf = false := by decide
theorem test_wf_header_height : (Instr.fileHdrRawTruecolor (header 1 0x8000 24 0)).wf = false := by decide
theorem test_wf_header_depth : (Instr.fileHdrRawGrayscale (header 1 1 12 0)).wf = false := by decide
theorem test_wf_header : (Instr.fileHdrRawGrayscale (header 32767 1 8 0)).wf = true := by decide

/-! ## Small states -/

/-- A machine at rest that holds a buffer. -/
def holding (b : Buffer) : State := { State.resetWith Params.default .rgb with buf := b }

/-- 95, state `S0`: PIX = FF 00 00 00 FF 00 00 00 FF FF FF FF. -/
def s0 : State :=
  holding ⟨2, 2, .rgb, [(0, 0xFF), (4, 0xFF), (8, 0xFF), (9, 0xFF), (10, 0xFF), (11, 0xFF)]⟩

/-- 95, state `G32`: PIX = 01 02 03 04 05 06. -/
def g32 : State := holding ⟨3, 2, .grayscale, [(0, 1), (1, 2), (2, 3), (3, 4), (4, 5), (5, 6)]⟩

/-- 95, state `K`: PIX = 5A. -/
def k : State := holding ⟨1, 1, .grayscale, [(0, 0x5A)]⟩

/-- An RGBA pixel 11 22 33 44 (95 V15). -/
def rgba1 : State := holding ⟨1, 1, .rgba, [(0, 0x11), (1, 0x22), (2, 0x33), (3, 0x44)]⟩

/-- The bytes of pixel memory below `LEN`. -/
def pix (s : State) : List Byte := Memory.readBytes s.buf.pix 0 (bufLen s.buf)

/-- Whether an outcome is a next state with this response and these pixel bytes. -/
def gives (o : Host.Outcome State Fault Refusal) (resp px : List Byte) : Bool :=
  match o with
  | .next t => decide (respBytes t.resp = resp) && decide (pix t = px)
  | .fault _ => false
  | .refused _ => false

/-- The file `F0` of 95, without its footer. -/
def f0 : List Byte :=
  [0, 0, 2, 0, 0, 0, 0, 0, 0, 0, 0, 0, 2, 0, 2, 0, 0x18, 0x20, 0xFF, 0, 0, 0, 0xFF, 0, 0, 0, 0xFF, 0xFF, 0xFF, 0xFF]

/-- `FOOTER_SIG` of 00 R7. -/
def sig : List Byte :=
  [0x54, 0x52, 0x55, 0x45, 0x56, 0x49, 0x53, 0x49, 0x4F, 0x4E, 0x2D, 0x58, 0x46, 0x49, 0x4C, 0x45, 0x2E, 0x00]

/-- A stream of the given header fields, a 2-byte little-endian width and height below 256, then these bytes. -/
def stream (code w h bits desc : Byte) (payload : List Byte) : Source :=
  .stream ([0, 0, code, 0, 0, 0, 0, 0, 0, 0, 0, 0, w, 0, h, 0, bits, desc] ++ payload)

/-! ## Single steps from the vectors of 95_test_vectors -/

/-- V1 and V9. -/
theorem test_construct : gives (exec (.construct 2 2 3) s0) (List.replicate 8 0) (List.replicate 12 0) = true := by
  decide

/-- V3: a negative width is stored as 0, the height kept. -/
theorem test_construct_clamps :
    gives (exec (.construct (-2) 5 3) s0) (List.replicate 8 0) [] = true ∧
      (∃ t, exec (.construct (-2) 5 3) s0 = .next t ∧ t.buf.width = 0 ∧ t.buf.height = 5) :=
  ⟨by decide, _, rfl, by decide, by decide⟩

/-- V13: a negative coordinate does not wrap. -/
theorem test_get_out_of_range : gives (exec (.get (-1) 0) s0) [0, 3, 0, 0, 0, 0, 0, 0] (pix s0) = true := by decide

/-- V16: three bytes stored, the alpha byte kept. -/
theorem test_set_keeps_alpha :
    gives (exec (.set 0 0 3 0xAA 0xBB 0xCC 0xDD) rgba1) (List.replicate 8 0) [0xAA, 0xBB, 0xCC, 0x44] = true := by
  decide

/-- V21: the operand check comes before the range test. -/
theorem test_set_illegal_count :
    gives (exec (.set 5 5 2 9 9 9 9) s0) [0x81, 0, 0, 0, 0, 0, 0, 0] (pix s0) = true := by decide

/-- V32. -/
theorem test_fliph : gives (exec .fliph s0) (List.replicate 8 0)
    [0x00, 0xFF, 0x00, 0xFF, 0x00, 0x00, 0xFF, 0xFF, 0xFF, 0x00, 0x00, 0xFF] = true := by decide

/-- V36: odd height, two columns. -/
theorem test_flipv :
    gives (exec .flipv (holding ⟨2, 3, .grayscale, [(0, 1), (1, 2), (2, 3), (3, 4), (4, 5), (5, 6)]⟩))
      (List.replicate 8 0) [5, 6, 3, 4, 1, 2] = true := by decide

/-- V24, the last legal offset. -/
theorem test_rawrd : gives (exec (.rawrd 11) s0) [0, 0, 0xFF, 0, 0, 0, 0, 0] (pix s0) = true := by decide

/-- V25, the first illegal one. -/
theorem test_rawrd_range : gives (exec (.rawrd 12) s0) [0x82, 0, 0, 0, 0, 0, 0, 0] (pix s0) = true := by decide

/-- V26. -/
theorem test_rawwr : gives (exec (.rawwr 5 0x7F) s0) (List.replicate 8 0)
    [0xFF, 0, 0, 0, 0xFF, 0x7F, 0, 0, 0xFF, 0xFF, 0xFF, 0xFF] = true := by decide

/-- V27. -/
theorem test_rawwr_range : gives (exec (.rawwr 12 0x7F) s0) [0x82, 0, 0, 0, 0, 0, 0, 0] (pix s0) = true := by decide

/-- V29. -/
theorem test_qw : gives (exec .qw g32) [0, 0, 3, 0, 0, 0, 0, 0] (pix g32) = true := by decide
theorem test_qh : gives (exec .qh g32) [0, 0, 2, 0, 0, 0, 0, 0] (pix g32) = true := by decide
theorem test_qbpp : gives (exec .qbpp rgba1) [0, 0, 4, 0, 0, 0, 0, 0] (pix rgba1) = true := by decide

/-- What a CWRITE gives: its response code and its `OUT` sequences. -/
def writes (vf : Byte) (s : State) : Option (Byte × List (List Byte)) :=
  match exec (.cwrite vf) s with
  | .next t => some (t.resp.err, t.outs)
  | .fault _ => none
  | .refused _ => none

/-- V30: `OUT` is `F0`. -/
theorem test_cwrite : writes 0 { s0 with sink := .takes none } = some (0, [f0 ++ List.replicate 8 0 ++ sig]) := by
  decide

/-- V47 at `cap` = 29: the pixel write fails after 11 pixel bytes. -/
theorem test_cwrite_short_sink : writes 0 { s0 with sink := .takes (some 29) } = some (7, [f0.take 29]) := by decide

/-- V43: byte 17 = 10, both flips. -/
theorem test_cread :
    gives (exec .cread { k with source := stream 2 2 2 0x18 0x10 (f0.drop 18) }) (List.replicate 8 0)
      [0xFF, 0xFF, 0xFF, 0x00, 0x00, 0xFF, 0x00, 0xFF, 0x00, 0xFF, 0x00, 0x00] = true := by decide

/-- V56: validation comes before the data type dispatch. -/
theorem test_cread_order :
    gives (exec .cread { k with source := stream 0x0A 1 1 0x10 0x20 [9, 9] })
      [4, 0, 0, 0, 0, 0, 0, 0] [0x5A] = true := by decide

/-- A CREAD that waits for the header of a stream of these bytes. -/
def awaiting (s : State) (S : List Byte) : State :=
  { s with phase := .rHeader, srcOpen := true, source := .stream S }

/-- V58: the header row of `F0`, no footer in the stream. -/
theorem test_header_truecolor :
    gives (exec (.fileHdrRawTruecolor (header 2 2 0x18 0x20)) (awaiting k f0)) (List.replicate 8 0) (pix s0) = true := by
  decide

/-- V59: the grey code with 24 bits is accepted. -/
theorem test_header_grayscale :
    gives (exec (.fileHdrRawGrayscale (header 2 2 0x18 0x20)) (awaiting k f0)) (List.replicate 8 0) (pix s0) = true := by
  decide

/-- V60, by a step: the all-zero descriptor, from the port. -/
theorem test_step_illegal_command :
    gives (step { s0 with port := [⟨0, .absent, .closed⟩] }) [0x80, 0, 0, 0, 0, 0, 0, 0] (pix s0) = true := by decide

/-- V63, by a step: a GET whose unused fields hold anything. -/
theorem test_step_get :
    gives (step { s0 with port := [⟨0x12345678EFBEADDE0000000155AA0702, .absent, .closed⟩] })
      [0, 3, 0, 0, 0, 0xFF, 0, 0] (pix s0) = true := by decide

/-- A word of the opcode table placed where step fetches is the instruction step runs. -/
theorem test_with_fetch_word :
    gives (step (k.withFetchWord 128 0x08)) [0, 0, 1, 0, 0, 0, 0, 0] [0x5A] = true ∧
      gives (step (k.withFetchWord 144 0x20000)) [4, 0, 0, 0, 0, 0, 0, 0] [0x5A] = true := by decide

/-! ## Witnesses: what the obligations' hypotheses ask for can be met -/

/-- `S0` with a bounded pixel memory. -/
def bounded (s : State) (n : Nat) : State := { s with params := { s.params with pixmemBytes := some n } }

/-- A CREAD in `R_PAYLOAD`, its header `F0`'s, its stream stalled after one payload byte. -/
def awaitingPayload : State :=
  { s0 with
    phase := .rPayload, srcOpen := true, pos := 19, source := .stalling (f0.take 19)
    hdr := headerWord 2 (header 2 2 0x18 0x20), nb := some ⟨2, 2, .rgb, []⟩ }

/-- A CWRITE in `W_PAYLOAD` whose sink has taken 19 bytes. -/
def awaitingSink : State :=
  { s0 with
    phase := .wPayload, dstOpen := true, pos := 19, sink := .stalling 19, out := some (f0.take 19)
    hdr := writtenHeader s0.buf 0 }

/-- EveryStepKeepsTheInvariant: `Inv` holds at rest and in each kind of wait, and each steps. -/
theorem witness_invariant_at_rest : s0.Inv ∧ ∃ t, step s0 = .next t :=
  ⟨by unfold State.Inv; decide, _, rfl⟩
theorem witness_invariant_awaiting_header : (awaiting s0 f0).Inv ∧ ∃ t, step (awaiting s0 f0) = .next t :=
  ⟨by unfold State.Inv; decide, _, rfl⟩
theorem witness_invariant_awaiting_payload : awaitingPayload.Inv ∧ ∃ t, step awaitingPayload = .next t :=
  ⟨by unfold State.Inv; decide, _, rfl⟩
theorem witness_invariant_awaiting_sink : awaitingSink.Inv ∧ ∃ t, step awaitingSink = .next t :=
  ⟨by unfold State.Inv; decide, _, rfl⟩

/-- ResetInputRestoresTheResetState, in the middle of a CWRITE. -/
theorem witness_reset_input : ({ awaitingSink with resetPin := true } : State).resetPin = true := by decide

/-- HeaderBytesAreDeterminedByTheirRow. -/
theorem witness_header_row : ∃ (h : Bytes18) (i : Instr), decode (headerBytes h) = .ok i :=
  ⟨headerWord 3 (header 1 1 8 0), .fileHdrRawGrayscale (header 1 1 8 0), by decide⟩

/-- UnusedDescriptorFieldsHaveNoEffect: V63's descriptor and `GET 1, 0` with zeros. -/
theorem witness_unused_fields :
    (0x12345678EFBEADDE0000000155AA0702 : Desc) &&& usedBits (descOp 0x12345678EFBEADDE0000000155AA0702) =
      (0x00000000000000000000000100000002 : Desc) &&& usedBits (descOp 0x00000000000000000000000100000002) := by decide

/-- UnallocatedOpcodesRaiseIllegalCommand, at the edges of the allocated ranges. -/
theorem witness_unallocated :
    s0.AtRest ∧ s0.resetPin = false ∧
      ∀ d ∈ ([0x00, 0x0B, 0x0F, 0x12, 0xFF] : List Desc),
        descOp d ∉ ([0x01, 0x02, 0x03, 0x04, 0x05, 0x06, 0x07, 0x08, 0x09, 0x0A, 0x10, 0x11] : List Byte) := by
  refine ⟨by decide, by decide, fun d hd => ?_⟩
  simp only [List.mem_cons, List.not_mem_nil, or_false] at hd
  rcases hd with rfl | rfl | rfl | rfl | rfl <;> decide

/-- StepRunsTheDecodedCommand and PortAcceptsOneCommandAtATime, with a request at the head and one behind it. -/
theorem witness_step_command :
    let r : Request := ⟨0x04, .absent, .closed⟩
    let s : State := { s0 with port := [r, r] }
    s.resetPin = false ∧ s.phase = .idle ∧ s.port = r :: [r] ∧ decode (descriptorBytes r.desc) = .ok .fliph ∧
      ∃ t, step s = .next t :=
  ⟨by decide, by decide, by decide, by decide, _, rfl⟩

/-- PortAcceptsOneCommandAtATime, its other clause: a command in progress. -/
theorem witness_port_busy :
    awaitingSink.resetPin = false ∧ awaitingSink.phase ≠ .idle ∧ ∃ t, step awaitingSink = .next t :=
  ⟨by decide, by decide, _, rfl⟩

/-- StepRunsTheDecodedHeader: exactly 18 bytes, from a complete and from a stalled stream. -/
theorem witness_step_header :
    (awaiting k (f0.take 18)).resetPin = false ∧ (awaiting k (f0.take 18)).phase = .rHeader ∧
      (awaiting k (f0.take 18)).source = .stream (f0.take 18) ∧ 18 ≤ (f0.take 18).length ∧
      decode ((f0.take 18).take 18) = .ok (.fileHdrRawTruecolor (header 2 2 0x18 0x20)) := by decide

/-- IdleWithoutRequestWaits. -/
theorem witness_idle : s0.resetPin = false ∧ s0.phase = .idle ∧ s0.port = [] := by decide

/-- The statements about one buffer command at rest in canonical form: CONSTRUCT, GET, SET, RAWRD, RAWWR, QW, QH, QBPP,
the flips. -/
theorem witness_at_rest : s0.AtRest ∧ Memory.wf s0.buf.pix := by decide

/-- ConstructMakesAZeroFilledBuffer: an illegal `M` beside a legal one, a clamped dimension, and 12 bytes just fitting
and just not fitting. -/
theorem witness_construct :
    (2 : Byte).toNat ∉ [1, 3, 4] ∧ (3 : Byte).toNat = bppBytes .rgb ∧
      ((0 : Half).toNat : Int) = max (-1 : Half).toInt 0 ∧ ((2 : Half).toNat : Int) = max (2 : Half).toInt 0 ∧
      ((32767 : Half).toNat : Int) = max (32767 : Half).toInt 0 ∧
      (∀ cap ∈ (bounded s0 12).params.pixmemBytes, (2 : Half).toNat * (2 : Half).toNat * bppBytes .rgb ≤ cap) ∧
      (∀ cap ∈ s0.params.pixmemBytes, (32767 : Half).toNat * (32767 : Half).toNat * bppBytes .rgba ≤ cap) ∧
      ∃ cap ∈ (bounded s0 11).params.pixmemBytes, cap < (2 : Half).toNat * (2 : Half).toNat * bppBytes .rgb :=
  ⟨by decide, by decide, by decide, by decide, by decide, by decide, by decide, 11, rfl, by decide⟩

/-- GetReturnsThePixelOrTheZeroColour, SetStoresTheColourOrNothing, GetAfterSetReturnsTheColour: the last pixel in
range, the first column and row out of range, -1 out of range. -/
theorem witness_range :
    inRange s0.buf 1 1 ∧ ¬inRange s0.buf 2 0 ∧ ¬inRange s0.buf 0 2 ∧ ¬inRange s0.buf (-1) 0 := by decide

/-- SetStoresTheColourOrNothing: counts on both sides of its first test. -/
theorem witness_counts :
    (1 : Byte).toNat ∈ [1, 3, 4] ∧ (4 : Byte).toNat ∈ [1, 3, 4] ∧ (2 : Byte).toNat ∉ [1, 3, 4] ∧
      (0x83 : Byte).toNat ∉ [1, 3, 4] := by decide

/-- RawReadReturnsTheByteOrRawRange, RawWriteStoresTheByteOrRawRange: the last offset and `LEN`. -/
theorem witness_offsets :
    (11 : Offset).toNat < s0.buf.width.toNat * s0.buf.height.toNat * bppBytes s0.buf.bpp ∧
      s0.buf.width.toNat * s0.buf.height.toNat * bppBytes s0.buf.bpp ≤ (12 : Offset).toNat := by decide

/-- GetAfterSetReturnsTheColour on an RGBA pixel, `n` = 4 (every channel stored), `n` = 3 (alpha kept) and `n` = 1
(every channel but the first kept). -/
theorem witness_get_after_set :
    rgba1.AtRest ∧ Memory.wf rgba1.buf.pix ∧ inRange rgba1.buf 0 0 ∧ rgba1.buf.bpp = .rgba ∧
      (∃ t u, exec (.set 0 0 4 1 2 3 4) rgba1 = .next t ∧ exec (.get 0 0) t = .next u) ∧
      (∃ t u, exec (.set 0 0 3 1 2 3 4) rgba1 = .next t ∧ exec (.get 0 0) t = .next u) ∧
      ∃ t u, exec (.set 0 0 1 1 2 3 4) rgba1 = .next t ∧ exec (.get 0 0) t = .next u :=
  ⟨by decide, by decide, by decide, rfl, ⟨_, _, rfl, rfl⟩, ⟨_, _, rfl, rfl⟩, _, _, rfl, rfl⟩

/-- RawReadAfterRawWrite, at the same and at another offset. -/
theorem witness_raw_read_after_write :
    s0.AtRest ∧ Memory.wf s0.buf.pix ∧ (11 : Offset).toNat < bufLen s0.buf ∧ (0 : Offset).toNat < bufLen s0.buf ∧
      ∃ t u v, exec (.rawwr 11 1) s0 = .next t ∧ exec (.rawrd 11) t = .next u ∧ exec (.rawrd 0) t = .next v :=
  ⟨by decide, by decide, by decide, by decide, _, _, _, rfl, rfl, rfl⟩

/-- RawReadsSeeTheChannelsGetReturns: the first and the last offset of the last slot. -/
theorem witness_slot :
    s0.AtRest ∧ inRange s0.buf 1 1 ∧ operandOff s0.buf 1 1 = (9 : Offset).toNat ∧
      (11 : Offset).toNat < operandOff s0.buf 1 1 + bppBytes s0.buf.bpp ∧
      ∃ t u v, exec (.get 1 1) s0 = .next t ∧ exec (.rawrd 9) s0 = .next u ∧ exec (.rawrd 11) s0 = .next v :=
  ⟨by decide, by decide, by decide, by decide, _, _, _, rfl, rfl, rfl⟩

/-- InRangeSlotsLieInsidePixelMemory, at the largest buffer's last pixel. -/
theorem witness_largest_buffer :
    let b : Buffer := ⟨32767, 32767, .rgba, []⟩
    b.width.toNat ≤ 32767 ∧ b.height.toNat ≤ 32767 ∧ inRange b 32766 32766 := by decide

/-- PixelBytesAndOffsetsCorrespond: the last byte of the last pixel of `S0` is the last offset. -/
theorem witness_pixel_offset :
    1 < s0.buf.width.toNat ∧ 1 < s0.buf.height.toNat ∧ 2 < bppBytes s0.buf.bpp ∧
      pixelOff s0.buf 1 1 + 2 = 11 ∧ 11 < bufLen s0.buf := by decide

/-- FlipsAreInvolutions and FlipsCommute. -/
theorem witness_flips :
    Memory.wf s0.buf.pix ∧ (∃ t u, exec .fliph s0 = .next t ∧ exec .fliph t = .next u) ∧
      (∃ t u, exec .flipv s0 = .next t ∧ exec .flipv t = .next u) ∧
      ∃ t u t' u', exec .fliph s0 = .next t ∧ exec .flipv t = .next u ∧ exec .flipv s0 = .next t' ∧
        exec .fliph t' = .next u' :=
  ⟨by decide, ⟨_, _, rfl, rfl⟩, ⟨_, _, rfl, rfl⟩, _, _, _, _, rfl, rfl, rfl, rfl⟩

/-- FlipsOfOnePixelOrNoneAreTheIdentity: one pixel, and an empty buffer of each kind. -/
theorem witness_flip_identity :
    (Buffer.Wf k.params k.buf ∧ k.buf.width = 1 ∧ k.buf.height = 1) ∧ Buffer.Wf k.params ⟨0, 5, .rgb, []⟩ ∧
      Buffer.Wf k.params ⟨4, 0, .rgba, []⟩ ∧ (∃ t, exec .fliph k = .next t) ∧ ∃ t, exec .flipv k = .next t :=
  ⟨by decide, by decide, by decide, ⟨_, rfl⟩, _, rfl⟩

/-- CwriteOutcomeByTheSink: the caps of V47 on both sides of each bound, with the codes V47 gives. -/
theorem witness_cwrite_caps :
    bufLen s0.buf = 12 ∧ s0.AtRest ∧
      [0, 17, 18, 29, 30, 55, 56].map (fun cap => (writes 0 { s0 with sink := .takes (some cap) }).map (·.1)) =
        [some 3, some 3, some 7, some 7, some 8, some 8, some 0] := by decide

/-- CwriteOutcomeByTheSink: V49, and a sink that does not open; an illegal flag comes first. -/
theorem witness_cwrite_refused :
    s0.sink = .closed ∧ writes 0 s0 = some (1, []) ∧ writes 2 s0 = some (0x81, []) := by decide

/-- CwriteLeavesTheBuffer, on a path that ends and on one that waits. -/
theorem witness_cwrite :
    s0.AtRest ∧ (∃ t, exec (.cwrite 0) { s0 with sink := .takes none } = .next t ∧ t.phase = .idle) ∧
      ∃ t, exec (.cwrite 0) { s0 with sink := .stalling 18 } = .next t ∧ t.phase = .wPayload :=
  ⟨by decide, ⟨_, rfl, rfl⟩, _, rfl, rfl⟩

/-- CwriteSuccessLaws. -/
theorem witness_cwrite_success :
    ({ s0 with sink := .takes none } : State).AtRest ∧ s0.buf.width.toNat ≤ 32767 ∧ s0.buf.height.toNat ≤ 32767 := by
  decide

/-- StalledSinkLeavesCwriteWaiting: the last waiting count and the first that takes the whole file. -/
theorem witness_stalled_sink :
    ({ s0 with sink := .stalling 55 } : State).AtRest ∧ 55 < 44 + bufLen s0.buf ∧ 44 + bufLen s0.buf ≤ 56 := by decide

/-- What a CREAD from `K` of a stream gives: its response code. -/
def reads (s : State) (src : Source) : Option Byte :=
  match exec .cread { s with source := src } with
  | .next t => some t.resp.err
  | .fault _ => none
  | .refused _ => none

/-- CreadFollowsItsPseudocode: each clause on one of V50 to V59, at the bound of its range. -/
theorem witness_cread_clauses :
    [reads k .absent, reads k (.stream (f0.take 17)), reads k (stream 2 0 2 0x18 0x20 []),
      reads (bounded k 11) (.stream f0), reads k (stream 1 2 2 0x18 0x20 []), reads k (.stream (f0.take 29)),
      reads (bounded k 12) (.stream f0)] =
      [some 1, some 2, some 4, some 0x83, some 5, some 6, some 0] := by decide

/-- CreadFollowsItsPseudocode: the hypotheses of its last clauses on `F0`. -/
theorem witness_cread_header :
    k.AtRest ∧ 18 ≤ f0.length ∧ 0 < (f0.getD 13 0 ++ f0.getD 12 0 : Half).toInt ∧
      0 < (f0.getD 15 0 ++ f0.getD 14 0 : Half).toInt ∧ (f0.getD 16 0).toNat = 8 * bppBytes .rgb ∧
      (f0.getD 2 0).toNat ∈ [2, 3] ∧
      18 + (f0.getD 13 0 ++ f0.getD 12 0 : Half).toNat * (f0.getD 15 0 ++ f0.getD 14 0 : Half).toNat * 3 ≤ f0.length := by
  decide

/-- CreadNormalisesTheOrientation: a success, the last byte of the last pixel; CreadForgetsThePreviousBuffer, from two
buffers. -/
theorem witness_cread_success :
    k.AtRest ∧ ∃ t t', exec .cread { k with source := .stream f0 } = .next t ∧
      exec .cread { { k with source := .stream f0 } with buf := s0.buf } = .next t' ∧ t.resp.err = 0 ∧
      1 < t.buf.width.toNat ∧ 1 < t.buf.height.toNat ∧ 2 < bppBytes t.buf.bpp :=
  ⟨by decide, _, _, rfl, rfl, by decide, by decide, by decide, by decide⟩

/-- CreadIgnoresTheUnusedBytes: V59's header beside `F0`'s, descriptor bits EF beside 20. -/
theorem witness_unused_header_bytes :
    let H : List Byte := f0.take 18
    let H' : List Byte := [5, 1, 2, 9, 9, 9, 9, 9, 9, 9, 9, 9, 2, 0, 2, 0, 0x18, 0xEF]
    k.AtRest ∧ H.length = 18 ∧ H'.length = 18 ∧ (∀ n ∈ [2, 12, 13, 14, 15, 16], H.getD n 0 = H'.getD n 0) ∧
      (H.getD 17 0) &&& 0x30 = (H'.getD 17 0) &&& 0x30 ∧
      (H.getD 13 0 ++ H.getD 12 0 : Half).toNat * (H.getD 15 0 ++ H.getD 14 0 : Half).toNat *
        ((H.getD 16 0).toNat / 8) ≤ (f0.drop 18).length := by decide

/-- ReadUndoesWrite. -/
theorem witness_round_trip :
    ({ s0 with sink := .takes none } : State).AtRest ∧ Buffer.Wf s0.params s0.buf ∧ 0 < s0.buf.width.toNat ∧
      0 < s0.buf.height.toNat := by decide

/-- The phase and the response code a CREAD of a stream that stops after these bytes leaves. -/
def stalls (s : State) (S : List Byte) : Option (Phase × Byte) :=
  match exec .cread { s with source := .stalling S } with
  | .next t => some (t.phase, t.resp.err)
  | .fault _ => none
  | .refused _ => none

/-- StalledSourceLeavesCreadWaiting: 17 bytes, a refused width, 12 bytes for a memory of 11, a refused type, the header
and 11 payload bytes of 12, and the whole payload. -/
theorem witness_stalled_source :
    k.AtRest ∧
      [stalls k (f0.take 17), stalls k ((f0.take 18).set 12 0), stalls (bounded k 11) (f0.take 18),
        stalls k ((f0.take 18).set 2 1), stalls k (f0.take 29), stalls k f0] =
        [some (.rHeader, 0), some (.idle, 4), some (.idle, 0x83), some (.idle, 5), some (.rPayload, 0),
          some (.idle, 0)] := by decide

/-- WaitingCommandsStayUntilReset and LateAnswerCompletesCread, waiting for the header and for the payload. -/
theorem witness_late_cread :
    s0.AtRest ∧ s0.resetPin = false ∧ f0.take 17 <+: f0 ∧ f0.take 18 <+: f0 ∧
      (∃ t, exec .cread { s0 with source := .stalling (f0.take 17) } = .next t ∧ t.phase ≠ .idle) ∧
      ∃ t, exec .cread { s0 with source := .stalling (f0.take 18) } = .next t ∧ t.phase ≠ .idle :=
  ⟨by decide, by decide, ⟨f0.drop 17, by decide⟩, ⟨f0.drop 18, by decide⟩, ⟨_, rfl, by decide⟩, _, rfl, by decide⟩

/-- LateAnswerCompletesCwrite, waiting in each of the three phases, for a bounded and for an unbounded sink. -/
theorem witness_late_cwrite :
    s0.AtRest ∧ s0.resetPin = false ∧ (∀ c ∈ some 55, 55 ≤ c) ∧ (∀ c ∈ (none : Option Nat), 55 ≤ c) ∧
      ∀ n ∈ [0, 17, 18, 29, 30, 55], ∃ t, exec (.cwrite 0) { s0 with sink := .stalling n } = .next t ∧
        t.phase ≠ .idle := by
  refine ⟨by decide, by decide, by decide, by decide, fun n hn => ?_⟩
  simp only [List.mem_cons, List.not_mem_nil, or_false] at hn
  rcases hn with rfl | rfl | rfl | rfl | rfl | rfl <;> exact ⟨_, rfl, by decide⟩

/-- HeaderRowsLoadTheFile: a CREAD awaiting its header from either kind of stream, each clause at its bound. -/
theorem witness_header_rows :
    (awaiting k f0).AwaitsHeader ∧ ({ awaiting k [] with source := .stalling (f0.take 29) } : State).AwaitsHeader ∧
      ¬(0 < (header 0 2 0x18 0).width.toInt ∧ 0 < (header 0 2 0x18 0).height.toInt ∧
        (header 0 2 0x18 0).bitsperpixel.toNat ∈ [8, 24, 32]) ∧
      0 < (header 2 2 0x18 0).width.toInt ∧ 0 < (header 2 2 0x18 0).height.toInt ∧
      (header 2 2 0x18 0).bitsperpixel.toNat = 8 * bppBytes .rgb ∧
      (∃ cap ∈ (bounded k 11).params.pixmemBytes, cap < 2 * 2 * bppBytes .rgb) ∧
      (∀ cap ∈ (bounded k 12).params.pixmemBytes, 2 * 2 * bppBytes .rgb ≤ cap) ∧
      (f0.take 29).length < 18 + 2 * 2 * bppBytes .rgb ∧ 18 + 2 * 2 * bppBytes .rgb ≤ f0.length :=
  ⟨by decide, by decide, by decide, by decide, by decide, by decide, ⟨11, rfl, by decide⟩, by decide, by decide,
    by decide⟩

/-- CreadRunsTheHeadersRow. -/
theorem witness_cread_row :
    ({ k with source := .stream f0 } : State).source = .stream f0 ∧ 18 ≤ f0.length ∧
      decode (f0.take 18) = .ok (.fileHdrRawTruecolor (header 2 2 0x18 0x20)) := by decide

/-- FailuresChangeRespAndStreamTracesAlone and ResponsesAreNotSticky: a buffer command, a CREAD and a CWRITE that fail
and end. -/
theorem witness_failure :
    s0.AtRest ∧ (∃ t, exec (.rawrd 12) s0 = .next t ∧ t.phase = .idle ∧ t.resp.err ≠ 0) ∧
      (∃ t, exec .cread { s0 with source := .stream [] } = .next t ∧ t.phase = .idle ∧ t.resp.err ≠ 0) ∧
      ∃ t, exec (.cwrite 0) { s0 with sink := .takes (some 17) } = .next t ∧ t.phase = .idle ∧ t.resp.err ≠ 0 :=
  ⟨by decide, ⟨_, rfl, rfl, by decide⟩, ⟨_, rfl, rfl, by decide⟩, _, rfl, rfl, by decide⟩

/-- OnlyConstructAndCreadWriteTheDescriptor. -/
theorem witness_descriptor_kept :
    (∀ w h m, Instr.fliph ≠ .construct w h m) ∧ Instr.fliph ≠ .cread ∧ (∀ f, Instr.fliph ≠ .fileHdrRawTruecolor f) ∧
      (∀ f, Instr.fliph ≠ .fileHdrRawGrayscale f) ∧ ∃ t, exec .fliph s0 = .next t :=
  ⟨nofun, nofun, nofun, nofun, _, rfl⟩

/-- HiddenRegistersAreUnobservable. -/
theorem witness_hidden :
    s0.AtRest ∧ ∃ t t', exec (.cwrite 0) { s0 with sink := .takes none } = .next t ∧
      exec (.cwrite 0) { { s0 with sink := .takes none } with pos := 7, hdr := 1, lineBuf := [9], draws := 5 } =
        .next t' :=
  ⟨by decide, _, _, rfl, rfl⟩

/-- NoStepChangesAParameter. -/
theorem witness_parameters : ∃ t, step (bounded s0 12) = .next t := ⟨_, rfl⟩

end Sys2Proof.Tests
end

