-- ==== Sys2Proof/Proofs/Parameters.lean ====
section
/-! PROOFS. The parameters are constant (00_scope R7, log 3): each phase, each instruction and each fetch leaves them as
they are, whatever the state; hence every step does. -/

namespace Sys2Proof.Machine

/-! ## The phases of CREAD -/

section Phases
variable (s : State)

@[simp] theorem creadCommit_params : (creadCommit s).params = s.params := by
  unfold creadCommit
  split
  · rfl
  · simp

@[simp] theorem creadOrientH_params : (creadOrientH s).params = s.params := creadCommit_params _

@[simp] theorem creadOrientV_params : (creadOrientV s).params = s.params := creadOrientH_params _

@[simp] theorem creadPayload_params : (creadPayload s).params = s.params := by
  cases hn : s.nb with
  | none => simp [creadPayload, hn]
  | some nb =>
    obtain ⟨-, he⟩ | ⟨-, he⟩ | ⟨_, -, -, he⟩ := creadPayload_cases hn <;> simp [he]

@[simp] theorem creadDispatch_params : (creadDispatch s).params = s.params := by
  unfold creadDispatch
  split <;> simp

@[simp] theorem creadValidate_params : (creadValidate s).params = s.params := by
  obtain ⟨-, he⟩ | ⟨_, -, ⟨-, he⟩ | ⟨-, -, he⟩ | ⟨-, -, he⟩⟩ := creadValidate_cases s <;> simp [he]

@[simp] theorem creadHeaderArrived_params (h : Bytes18) : (creadHeaderArrived h s).params = s.params :=
  creadValidate_params _

@[simp] theorem creadHeader_params : (creadHeader s).params = s.params := by
  unfold creadHeader
  split <;> simp

@[simp] theorem creadOpen_params : (creadOpen s).params = s.params := by
  unfold creadOpen
  split <;> simp

/-! ## The phases of CWRITE -/

/-- However a phase of CWRITE ends, the parameters stay. -/
theorem WriteEnds.params_eq {s t : State} (h : WriteEnds s t) : t.params = s.params := by
  cases h <;> rfl

@[simp] theorem cwriteFooter_params : (cwriteFooter s).params = s.params := (cwriteFooter_ends s).params_eq

@[simp] theorem cwritePayload_params : (cwritePayload s).params = s.params := (cwritePayload_ends s).params_eq

@[simp] theorem cwriteHeader_params : (cwriteHeader s).params = s.params := (cwriteHeader_ends s).params_eq

@[simp] theorem cwriteOpen_params (vf : Byte) : (cwriteOpen vf s).params = s.params := by
  unfold cwriteOpen
  split <;> simp

/-- A waiting command that looks at its stream again keeps the parameters, in any phase. -/
@[simp] theorem resume_params : (resume s).params = s.params := by
  unfold resume
  split <;> simp

end Phases

/-! ## Instructions -/

/-- Every instruction answers a next state with the parameters it found. -/
theorem exec_keeps_params (i : Instr) (s : State) : ∃ t, exec i s = .next t ∧ t.params = s.params := by
  cases i with
  | get | fliph | flipv | qw | qh | qbpp => exact ⟨_, rfl, rfl⟩
  | construct w h m =>
    refine ⟨_, rfl, ?_⟩
    split
    · simp
    · dsimp only
      split <;> simp
  | set x y n c0 c1 c2 c3 =>
    refine ⟨_, rfl, ?_⟩
    split
    · simp
    · rw [complete_eq, finish_params]
      split <;> rfl
  | rawrd off | rawwr off b | cwrite vf =>
    refine ⟨_, rfl, ?_⟩
    split <;> simp
  | cread => exact ⟨_, rfl, creadOpen_params s⟩
  | fileHdrRawTruecolor f | fileHdrRawGrayscale f => exact ⟨_, rfl, creadHeaderArrived_params s _⟩

/-! ## Fetching and the step -/

/-- The state a fetch hands on: the one to run in, or the one it settles. -/
def Fetched.state : Fetched → State
  | .run _ t => t
  | .settle t => t

/-- The command port writes no parameter, whether it is empty or its head is legal or not. -/
theorem fetchCommand_state_params (s : State) : (fetchCommand s).state.params = s.params := by
  unfold fetchCommand
  split
  · rfl
  · split <;> simp [Fetched.state]

/-- Fetching a header writes no parameter, whether it has a row, has none, or is not there yet. -/
theorem fetchHeader_state_params (s : State) : (fetchHeader s).state.params = s.params := by
  unfold fetchHeader
  split
  · split <;> simp [Fetched.state]
  · simp [Fetched.state]

theorem fetch_state_params (s : State) : (fetch s).state.params = s.params := by
  unfold fetch
  split
  · exact resetEvent_params s
  · split
    · exact fetchCommand_state_params s
    · exact fetchHeader_state_params s
    · exact resume_params s

/-- Every step answers a next state with the parameters it found. -/
theorem step_keeps_params (s : State) : ∃ t, step s = .next t ∧ t.params = s.params := by
  have hf := fetch_state_params s
  unfold step
  cases h : fetch s with
  | run i u =>
    rw [h] at hf
    obtain ⟨t, ht, hp⟩ := exec_keeps_params i u
    exact ⟨t, ht, hp.trans hf⟩
  | settle u =>
    rw [h] at hf
    exact ⟨u, rfl, hf⟩

/-- Settles O54: the one next state of a step has the parameters of the state before it. -/
theorem noStepChangesAParameter : Obligations.NoStepChangesAParameter := by
  intro s t h
  obtain ⟨u, hu, hp⟩ := step_keeps_params s
  obtain rfl : u = t := Host.Outcome.next.inj (hu.symm.trans h)
  exact hp

end Sys2Proof.Machine
end

