-- ==== Sys2Proof/Proofs/Invariant.lean ====
section
/-! PROOFS. The invariant (10_state R24, R31, R35, R36): it holds at reset, each way a command ends or waits keeps it,
hence every instruction where the step runs it, and every step. -/

namespace Sys2Proof.Machine

/-! ## Buffers -/

/-- A buffer without stored bytes is well formed when its shape is. -/
theorem empty_wf {p : Params} {w h : Half} {b : Bpp} (hw : w.toNat ≤ Config.dimMax) (hh : h.toNat ≤ Config.dimMax)
    (hf : fits p (bufLen ⟨w, h, b, []⟩) = true) : Buffer.Wf p ⟨w, h, b, []⟩ :=
  ⟨Memory.wf_nil, by simp, hw, hh, fits_eq_true.mp hf⟩

/-- Stores below `LEN` keep a buffer well formed. -/
theorem writeBytes_wf {p : Params} {b : Buffer} {k : Nat} {vs : List Byte} (h : Buffer.Wf p b)
    (hk : k + vs.length ≤ bufLen b) : Buffer.Wf p { b with pix := Memory.writeBytes b.pix k vs } := by
  obtain ⟨hm, hlt, hw, hh, hf⟩ := h
  refine ⟨Memory.wf_writeBytes hm k vs, fun c hc => ?_, hw, hh, hf⟩
  rcases Memory.mem_writeBytes hc with hc | ⟨-, hc⟩
  · exact hlt c hc
  · exact lt_of_lt_of_le hc hk

/-- A clamped dimension is at most 32767 (R121). -/
theorem clampDim_le (d : Half) : (clampDim d).toNat ≤ Config.dimMax := by
  unfold clampDim
  split
  · simp
  · next h =>
    rw [BitVec.toInt_eq_toNat_cond] at h
    simp only [Config.dimMax]
    split at h <;> omega

theorem length_setBytes_le (b n : Bpp) (c0 c1 c2 c3 : Byte) : (setBytes b n c0 c1 c2 c3).length ≤ bppBytes b := by
  simp only [setBytes, List.length_take]
  omega

/-! ## Reset and the end of a command -/

theorem resetWith_inv (p : Params) (b : Bpp) : (State.resetWith p b).Inv :=
  ⟨empty_wf (Nat.zero_le _) (Nat.zero_le _) (by simp [bufLen, fits_zero]), nofun, .inl ⟨rfl, rfl, rfl, rfl, rfl⟩⟩

/-- Settles O2: the reset state for any parameters holds an empty buffer and is at rest. -/
theorem resetMeetsTheInvariant : Obligations.ResetMeetsTheInvariant :=
  ⟨resetWith_inv _ _, resetWith_inv⟩

theorem resetEvent_inv (s : State) : (resetEvent s).Inv := resetWith_inv s.params Config.resetBpp

/-- A command that ends with a well-formed buffer leaves the invariant. -/
theorem finish_inv {s : State} (r : Resp) (h : Buffer.Wf s.params s.buf) : (finish r s).Inv :=
  ⟨h, nofun, .inl (atRest_finish r s)⟩

/-! ## The phases of CREAD, the source open -/

section Read
variable {s : State}

theorem creadPayload_inv {nb : Buffer} (hb : Buffer.Wf s.params s.buf) (hn : s.nb = some nb)
    (hnb : Buffer.Wf s.params nb) (hs : s.srcOpen = true) (hd : s.dstOpen = false) (ho : s.out = none) :
    (creadPayload s).Inv := by
  obtain ⟨-, he⟩ | ⟨-, he⟩ | ⟨bytes, -, hl, he⟩ := creadPayload_cases hn <;> rw [he]
  · exact finish_inv _ hb
  · refine ⟨hb, fun b hb' => ?_, .inr (.inr (.inl ⟨rfl, hs, hd, by simp [hn], ho⟩))⟩
    obtain rfl : nb = b := Option.some.inj (hn.symm.trans hb')
    exact hnb
  · obtain ⟨-, -, hw, hh, hf⟩ := hnb
    exact finish_inv _ (upright_wf (loaded_wf hw hh (fits_eq_true.mpr hf) hl.le))

theorem creadValidate_inv (hb : Buffer.Wf s.params s.buf) (hs : s.srcOpen = true) (hd : s.dstOpen = false)
    (ho : s.out = none) : (creadValidate s).Inv := by
  obtain ⟨-, he⟩ | ⟨nb, hnb, ⟨-, he⟩ | ⟨-, -, he⟩ | ⟨hf, -, he⟩⟩ := creadValidate_cases s <;> rw [he]
  · exact finish_inv _ hb
  · exact finish_inv _ hb
  · exact finish_inv _ hb
  · exact creadPayload_inv hb rfl (headerBuffer_wf hnb hf) hs hd ho

theorem creadHeaderArrived_inv (h : Bytes18) (hb : Buffer.Wf s.params s.buf) (hs : s.srcOpen = true)
    (hd : s.dstOpen = false) (ho : s.out = none) : (creadHeaderArrived h s).Inv :=
  creadValidate_inv hb hs hd ho

theorem creadHeader_inv (hb : Buffer.Wf s.params s.buf) (hs : s.srcOpen = true) (hd : s.dstOpen = false)
    (hn : s.nb = none) (ho : s.out = none) : (creadHeader s).Inv := by
  unfold creadHeader
  split
  · exact finish_inv _ hb
  · exact ⟨hb, by simp [hn], .inr (.inl ⟨rfl, hs, hd, hn, ho⟩)⟩
  · exact creadHeaderArrived_inv _ hb hs hd ho

theorem creadOpen_inv (hb : Buffer.Wf s.params s.buf) (h : s.AtRest) : (creadOpen s).Inv := by
  obtain ⟨-, -, hd, hn, ho⟩ := h
  unfold creadOpen
  split
  · exact finish_inv _ hb
  · exact creadHeader_inv hb rfl hd hn ho

end Read

/-! ## The phases of CWRITE, the sink open -/

section Write
variable {s : State}

/-- However a phase of CWRITE ends, the invariant holds. -/
theorem WriteEnds.inv {t : State} (h : WriteEnds s t) (hb : Buffer.Wf s.params s.buf) (hs : s.srcOpen = false)
    (hd : s.dstOpen = true) (hn : s.nb = none) (ho : s.out.isSome = true) : t.Inv := by
  cases h with
  | success o p => exact finish_inv _ hb
  | failure e o p => exact finish_inv _ hb
  | waits ph o p hph ho' => exact ⟨hb, by simp [hn], .inr (.inr (.inr ⟨hph, hs, hd, hn, ho'.trans ho⟩))⟩

theorem cwriteOpen_inv (vf : Byte) (hb : Buffer.Wf s.params s.buf) (h : s.AtRest) : (cwriteOpen vf s).Inv := by
  obtain ⟨-, hs, -, hn, -⟩ := h
  unfold cwriteOpen
  split
  · exact finish_inv _ hb
  · exact (cwriteHeader_ends _).inv hb hs rfl hn rfl

end Write

/-! ## Instructions and the step -/

/-- Whether an instruction is a row of a file header, which a step runs in `R_HEADER` alone. -/
def isHeaderRow : Instr → Bool
  | .fileHdrRawTruecolor _ | .fileHdrRawGrayscale _ => true
  | _ => false

/-- A descriptor is never a header row (R86). -/
theorem isHeaderRow_of_decodeDescriptor {d : Desc} {i : Instr} (h : decodeDescriptor d = .ok i) :
    isHeaderRow i = false := by
  unfold decodeDescriptor at h
  split at h
  case h_13 => cases h
  all_goals obtain rfl := Except.ok.inj h; rfl

/-- Eighteen bytes with a row are a header row (R93, R102). -/
theorem isHeaderRow_of_decode {bytes : List Byte} {i : Instr} (hl : bytes.length = 18) (h : decode bytes = .ok i) :
    isHeaderRow i = true := by
  rw [decode, if_neg (by omega), if_pos hl, decodeHeader] at h
  split at h
  case h_3 => cases h
  all_goals obtain rfl := Except.ok.inj h; rfl

/-- A command run at rest, as the port runs it, leaves the invariant. -/
theorem exec_inv_of_atRest {i : Instr} {s t : State} (hi : isHeaderRow i = false) (hb : Buffer.Wf s.params s.buf)
    (h : s.AtRest) (he : exec i s = .next t) : t.Inv := by
  cases i with
  | get | qw | qh | qbpp => obtain rfl := Host.Outcome.next.inj he; exact finish_inv _ hb
  | fliph => obtain rfl := Host.Outcome.next.inj he; exact finish_inv _ (flipH_wf hb)
  | flipv => obtain rfl := Host.Outcome.next.inj he; exact finish_inv _ (flipV_wf hb)
  | construct w h m =>
    obtain rfl := Host.Outcome.next.inj he
    split
    · exact finish_inv _ hb
    · dsimp only
      split
      · next hf => exact finish_inv _ (empty_wf (clampDim_le _) (clampDim_le _) hf)
      · exact finish_inv _ hb
  | set x y n c0 c1 c2 c3 =>
    obtain rfl := Host.Outcome.next.inj he
    split
    · exact finish_inv _ hb
    · next nb _ =>
      refine finish_inv _ ?_
      split
      · next hr =>
        have := operandOff_add_le hr
        have := length_setBytes_le s.buf.bpp nb c0 c1 c2 c3
        exact writeBytes_wf hb (by omega)
      · exact hb
  | rawrd off =>
    obtain rfl := Host.Outcome.next.inj he
    split <;> exact finish_inv _ hb
  | rawwr off b =>
    obtain rfl := Host.Outcome.next.inj he
    split
    · next hlt => exact finish_inv _ (writeBytes_wf (vs := [b]) hb hlt)
    · exact finish_inv _ hb
  | cwrite vf =>
    obtain rfl := Host.Outcome.next.inj he
    split
    · exact cwriteOpen_inv vf hb h
    · exact finish_inv _ hb
  | cread => obtain rfl := Host.Outcome.next.inj he; exact creadOpen_inv hb h
  | fileHdrRawTruecolor | fileHdrRawGrayscale => cases hi

/-- A header row run in `R_HEADER`, as the fetch of the header runs it, leaves the invariant. -/
theorem exec_inv_of_awaitsHeader {i : Instr} {s t : State} (hi : isHeaderRow i = true)
    (hb : Buffer.Wf s.params s.buf) (h : s.AwaitsHeader) (he : exec i s = .next t) : t.Inv := by
  obtain ⟨-, hs, hd, -, ho⟩ := h
  cases i with
  | fileHdrRawTruecolor | fileHdrRawGrayscale =>
    obtain rfl := Host.Outcome.next.inj he
    exact creadHeaderArrived_inv _ hb hs hd ho
  | _ => cases hi

/-- What a fetch may hand on: a command at rest, a header row in `R_HEADER`, or a state that meets the invariant. -/
def Fetched.Inv : Fetched → Prop
  | .run i s => Buffer.Wf s.params s.buf ∧ (isHeaderRow i = false ∧ s.AtRest ∨ isHeaderRow i = true ∧ s.AwaitsHeader)
  | .settle s => s.Inv

theorem fetchCommand_inv {s : State} (hi : s.Inv) (h : s.AtRest) : (fetchCommand s).Inv := by
  unfold fetchCommand
  split
  · exact hi
  · split
    · next hd => exact ⟨hi.1, .inl ⟨isHeaderRow_of_decodeDescriptor hd, h⟩⟩
    · exact finish_inv _ hi.1

theorem fetchHeader_inv {s : State} (hb : Buffer.Wf s.params s.buf) (h : s.AwaitsHeader) : (fetchHeader s).Inv := by
  have hw : (creadHeader s).Inv := by
    obtain ⟨-, hs, hd, hn, ho⟩ := h
    exact creadHeader_inv hb hs hd hn ho
  unfold fetchHeader
  split
  · next hr =>
    split
    · next hd => exact ⟨hb, .inr ⟨isHeaderRow_of_decode (length_of_srcRead hr) hd, h⟩⟩
    · exact hw
  · exact hw

/-- A command that waits for its payload or its sink and looks at it again leaves the invariant. -/
theorem resume_inv {s : State} (hi : s.Inv) (h : s.AwaitsPayload ∨ s.AwaitsSink) : (resume s).Inv := by
  obtain ⟨hb, hnb, -⟩ := hi
  unfold resume
  obtain ⟨hp, hs, hd, hn, ho⟩ | ⟨hp | hp | hp, hs, hd, hn, ho⟩ := h <;> rw [hp]
  · obtain ⟨nb, hn⟩ := Option.isSome_iff_exists.mp hn
    exact creadPayload_inv hb hn (hnb nb hn) hs hd ho
  · exact (cwriteHeader_ends s).inv hb hs hd hn ho
  · exact (cwritePayload_ends s).inv hb hs hd hn ho
  · exact (cwriteFooter_ends s).inv hb hs hd hn ho

theorem fetch_inv {s : State} (hi : s.Inv) : (fetch s).Inv := by
  unfold fetch
  split
  · exact resetEvent_inv s
  · obtain ⟨hb, -, h | h | h | h⟩ := id hi
    · rw [h.1]; exact fetchCommand_inv hi h
    · rw [h.1]; exact fetchHeader_inv hb h
    · rw [h.1]; exact resume_inv hi (.inl h)
    · obtain ⟨hp | hp | hp, -⟩ := id h <;> rw [hp] <;> exact resume_inv hi (.inr h)

/-- Settles O3: what a fetch hands on meets the invariant or is run where running it leaves the invariant. -/
theorem everyStepKeepsTheInvariant : Obligations.EveryStepKeepsTheInvariant := by
  intro s t hi hst
  have hf := fetch_inv hi
  unfold step at hst
  cases h : fetch s with
  | run i u =>
    rw [h] at hf hst
    obtain ⟨hb, ⟨hr, hu⟩ | ⟨hr, hu⟩⟩ := hf
    · exact exec_inv_of_atRest hr hb hu hst
    · exact exec_inv_of_awaitsHeader hr hb hu hst
  | settle u =>
    rw [h] at hf hst
    obtain rfl := Host.Outcome.next.inj hst
    exact hf

end Sys2Proof.Machine
end

