-- ==== Sys2Proof/Proofs/Pixels.lean ====
section
/-! PROOFS. Pixels, offsets and channels (20_memory R52, R63; 40_buffer_ops R122 to R124, R132): the bytes of pixels and
the offsets below `LEN` correspond, a GET sees what a SET stored and kept, and which commands keep the descriptor. -/

namespace Sys2Proof.Machine

/-! ## Offsets -/

section Offsets
variable {b : Buffer} {x y c : Nat}

/-- The pixel's number in the buffer is its offset divided by `BPP` (R124). -/
theorem pixelOff_div_bppBytes (hc : c < bppBytes b.bpp) :
    (pixelOff b x y + c) / bppBytes b.bpp = y * b.width.toNat + x := by
  rw [pixelOff, Nat.add_comm, Nat.add_mul_div_right _ _ (bppBytes_pos _), Nat.div_eq_of_lt hc, Nat.zero_add]

/-- The channel is the offset modulo `BPP` (R124). -/
theorem pixelOff_mod_bppBytes (hc : c < bppBytes b.bpp) : (pixelOff b x y + c) % bppBytes b.bpp = c := by
  rw [pixelOff, Nat.mul_add_mod_self_right, Nat.mod_eq_of_lt hc]

/-- Column, row and channel of a pixel's byte from its offset (R124). -/
theorem pixel_of_pixelOff (hx : x < b.width.toNat) (hc : c < bppBytes b.bpp) :
    (pixelOff b x y + c) / bppBytes b.bpp % b.width.toNat = x ∧
      (pixelOff b x y + c) / bppBytes b.bpp / b.width.toNat = y ∧ (pixelOff b x y + c) % bppBytes b.bpp = c := by
  rw [pixelOff_div_bppBytes hc, pixelOff_mod_bppBytes hc, Nat.mul_add_mod_self_right, Nat.mod_eq_of_lt hx,
    Nat.add_comm, Nat.add_mul_div_right _ _ (by omega), Nat.div_eq_of_lt hx, Nat.zero_add]
  exact ⟨rfl, rfl, rfl⟩

end Offsets

/-- Settles O26: an offset below `LEN` is some pixel's byte, which division gives back. -/
theorem pixelBytesAndOffsetsCorrespond : Obligations.PixelBytesAndOffsetsCorrespond := by
  intro b
  refine ⟨fun x y c hx hy hc => ⟨pixelOff_lt hx hy hc, pixel_of_pixelOff hx hc⟩, fun k hk => ?_⟩
  obtain ⟨x, y, c, hx, hy, hc, rfl⟩ := exists_pixel hk
  obtain ⟨ex, ey, ec⟩ := pixel_of_pixelOff (y := y) hx hc
  rw [ex, ey, ec]
  exact ⟨hx, hy, hc, rfl⟩

/-! ## GET after SET -/

/-- The legal counts as numbers (R87). -/
theorem exists_bpp_of_toNat_mem {n : Byte} (h : n.toNat ∈ [1, 3, 4]) :
    ∃ b, bppOfByte n = some b ∧ bppBytes b = n.toNat := by
  simp only [List.mem_cons, List.not_mem_nil, or_false] at h
  rcases h with h | h | h <;> simp only [bppOfByte, h]
  exacts [⟨.grayscale, rfl, rfl⟩, ⟨.rgb, rfl, rfl⟩, ⟨.rgba, rfl, rfl⟩]

/-- SET in range with a legal count stores the colour's bytes in the pixel's slot and ends with success (R123). -/
theorem exec_set_of_inRange {s : State} {x y : Half} {n c0 c1 c2 c3 : Byte} {b : Bpp} (hn : bppOfByte n = some b)
    (hr : inRange s.buf x y) :
    exec (.set x y n c0 c1 c2 c3) s = .next (finish respOk { s with buf := { s.buf with
      pix := Memory.writeBytes s.buf.pix (operandOff s.buf x y) (setBytes s.buf.bpp b c0 c1 c2 c3) } }) := by
  simp only [exec, execSet, hn, if_pos hr, complete_eq]

/-- GET in range answers the bytes of the pixel's slot (R122). -/
theorem exec_get_of_inRange {s : State} {x y : Half} (hr : inRange s.buf x y) :
    exec (.get x y) s = .next (finish (respColour s.buf.bpp
      (Memory.readBytes s.buf.pix (operandOff s.buf x y) (bppBytes s.buf.bpp))) s) := by
  simp only [exec, execGet, if_pos hr, complete_eq]

/-- A channel of the slot after the colour's bytes are stored there: stored below both counts, else kept (R123). -/
theorem channel_after_setBytes {m : Memory} (hm : Memory.wf m) (off : Nat) (b n : Bpp) (c0 c1 c2 c3 : Byte) {i : Nat}
    (hi : i < bppBytes b) :
    (Memory.readBytes (Memory.writeBytes m off (setBytes b n c0 c1 c2 c3)) off (bppBytes b)).getD i 0 =
      if i < bppBytes n then [c0, c1, c2, c3].getD i 0 else Memory.readByte m (off + i) := by
  have hl : (setBytes b n c0 c1 c2 c3).length = min (bppBytes b) (bppBytes n) := by
    have := bppBytes_le b
    simp only [setBytes, List.length_take, List.length_cons, List.length_nil]
    omega
  rw [Memory.getD_readBytes _ _ _ _ hi, Memory.readByte_writeBytes hm, hl, Nat.add_sub_cancel_left]
  split_ifs with h1 h2 h2
  · rw [setBytes, List.getD_eq_getElem?_getD, List.getElem?_take_of_lt (by omega), ← List.getD_eq_getElem?_getD]
  · omega
  · omega
  · rfl

/-- Settles O22: each channel of the GET is one of the slot after the SET. -/
theorem getAfterSetReturnsTheColour : Obligations.GetAfterSetReturnsTheColour := by
  intro s t u x y n c0 c1 c2 c3 _ hm hr hn ht hu
  obtain ⟨nb, hnb, hcount⟩ := exists_bpp_of_toNat_mem hn
  obtain rfl := Host.Outcome.next.inj ((exec_set_of_inRange hnb hr).symm.trans ht)
  obtain rfl := Host.Outcome.next.inj ((exec_get_of_inRange (by exact hr)).symm.trans hu)
  have channel := fun i => channel_after_setBytes hm (operandOff s.buf x y) s.buf.bpp nb c0 c1 c2 c3 (i := i)
  have hpos := bppBytes_pos nb
  have hbpp : s.buf.bpp ≠ .grayscale → 2 < bppBytes s.buf.bpp := by cases s.buf.bpp <;> simp [bppBytes]
  refine ⟨(channel 0 (bppBytes_pos _)).trans (if_pos hpos), fun hb h3 => ?_, fun hb h1 => ?_, fun hb h4 => ?_,
    fun hb h4 => ?_⟩
  · have := hbpp hb
    exact ⟨(channel 1 (by omega)).trans (if_pos (by omega)), (channel 2 this).trans (if_pos (by omega))⟩
  · have := hbpp hb
    exact ⟨(channel 1 (by omega)).trans (if_neg (by omega)), (channel 2 this).trans (if_neg (by omega))⟩
  · exact (channel 3 (by rw [hb]; decide)).trans (if_pos (by omega))
  · have : bppBytes nb ≤ 3 := by
      simp only [List.mem_cons, List.not_mem_nil, or_false] at hn
      omega
    exact (channel 3 (by rw [hb]; decide)).trans (if_neg (by omega))

/-! ## The descriptor -/

/-- However a phase of CWRITE ends, the buffer is as before (R173). -/
theorem WriteEnds.buf_eq {s t : State} (h : WriteEnds s t) : t.buf = s.buf := by
  cases h <;> rfl

/-- CWRITE leaves the buffer as it is, from any state (R173). -/
@[simp] theorem cwriteOpen_buf (vf : Byte) (s : State) : (cwriteOpen vf s).buf = s.buf := by
  unfold cwriteOpen
  split
  · rfl
  · exact (cwriteHeader_ends _).buf_eq

/-- Settles O51: SET, RAWWR and the flips write `PIX` alone, the other commands no register of the buffer. -/
theorem onlyConstructAndCreadWriteTheDescriptor : Obligations.OnlyConstructAndCreadWriteTheDescriptor := by
  intro i s t ht hconstruct hcread htruecolor hgrayscale
  cases i with
  | construct w h m => exact absurd rfl (hconstruct w h m)
  | cread => exact absurd rfl hcread
  | fileHdrRawTruecolor f => exact absurd rfl (htruecolor f)
  | fileHdrRawGrayscale f => exact absurd rfl (hgrayscale f)
  | get | fliph | flipv | qw | qh | qbpp => obtain rfl := Host.Outcome.next.inj ht; exact ⟨rfl, rfl, rfl⟩
  | set x y n c0 c1 c2 c3 =>
    obtain rfl := Host.Outcome.next.inj ht
    split
    · exact ⟨rfl, rfl, rfl⟩
    · rw [complete_eq, finish_buf]
      split <;> exact ⟨rfl, rfl, rfl⟩
  | rawrd off | rawwr off b =>
    obtain rfl := Host.Outcome.next.inj ht
    split <;> exact ⟨rfl, rfl, rfl⟩
  | cwrite vf =>
    obtain rfl := Host.Outcome.next.inj ht
    split <;> simp

end Sys2Proof.Machine
end

