-- ==== Sys2Proof/Proofs/FlipRows.lean ====
section
/-! PROOFS. FLIPV is the row-swap loop of R151: what one exchange of two rows does to each byte, what the loop has done
after some rows, and that the whole loop is the top-bottom mirror. -/

namespace Sys2Proof.Machine

/-! ## Exchanging two ranges of bytes -/

theorem wf_swapBytes {m : Memory} (h : Memory.wf m) (a b n : Nat) : Memory.wf (swapBytes a b n m) :=
  Memory.wf_writeBytes (Memory.wf_writeBytes h _ _) _ _

/-- Everything an exchange of two disjoint ranges does. -/
theorem readByte_swapBytes {m : Memory} (h : Memory.wf m) {a b n : Nat} (hd : a + n ≤ b) (k : Nat) :
    Memory.readByte (swapBytes a b n m) k =
      if a ≤ k ∧ k < a + n then Memory.readByte m (b + (k - a))
      else if b ≤ k ∧ k < b + n then Memory.readByte m (a + (k - b)) else Memory.readByte m k := by
  unfold swapBytes
  rw [Memory.readByte_writeBytes (Memory.wf_writeBytes h _ _), Memory.readByte_writeBytes h]
  simp only [Memory.length_readBytes]
  by_cases hb : b ≤ k ∧ k < b + n
  · rw [if_pos hb, if_neg (by omega), if_pos hb, Memory.getD_readBytes _ _ _ _ (by omega)]
  · rw [if_neg hb]
    by_cases ha : a ≤ k ∧ k < a + n
    · rw [if_pos ha, if_pos ha, Memory.getD_readBytes _ _ _ _ (by omega)]
    · rw [if_neg ha, if_neg ha, if_neg hb]

theorem wf_loopUpTo {f : Nat → Memory → Memory} (hf : ∀ i m, Memory.wf m → Memory.wf (f i m)) {m : Memory}
    (h : Memory.wf m) (n : Nat) : Memory.wf (loopUpTo f n m) := by
  induction n with
  | zero => exact h
  | succ n ih => exact hf n _ ih

/-! ## The rows -/

/-- The exchange of the rows `p` and `q` of length `r`. -/
theorem readByte_swapRows {m : Memory} (h : Memory.wf m) {p q r : Nat} (hpq : p < q) {x : Nat} (hx : x < r) (j : Nat) :
    Memory.readByte (swapBytes (p * r) (q * r) r m) (j * r + x) =
      Memory.readByte m ((if j = p then q else if j = q then p else j) * r + x) := by
  have hin : ∀ i, (i * r ≤ j * r + x ∧ j * r + x < i * r + r) ↔ j = i := by
    intro i
    constructor
    · rintro ⟨h1, h2⟩
      rw [← Nat.succ_mul] at h2
      have := Nat.lt_of_mul_lt_mul_right (lt_of_le_of_lt (Nat.le_add_right _ _) h2)
      have : i < j + 1 := Nat.lt_of_mul_lt_mul_right (a := r) (by rw [Nat.succ_mul]; omega)
      omega
    · rintro rfl
      omega
  have hd : p * r + r ≤ q * r := by
    rw [← Nat.succ_mul]
    exact Nat.mul_le_mul_right r hpq
  rw [readByte_swapBytes h hd]
  simp only [hin]
  split_ifs with h1 h2
  · subst h1; congr 1; omega
  · subst h2; congr 1; omega
  · rfl

/-- The first `n` exchanges of R151's loop over `H` rows of length `r`. -/
def rowLoop (H r n : Nat) (m : Memory) : Memory :=
  loopUpTo (fun i => swapBytes (i * r) ((H - 1 - i) * r) r) n m

theorem flipVInPlace_eq_rowLoop (b : Buffer) :
    flipVInPlace b = rowLoop b.height.toNat (rowLen b) (b.height.toNat / 2) b.pix := rfl

theorem rowLoop_succ (H r n : Nat) (m : Memory) :
    rowLoop H r (n + 1) m = swapBytes (n * r) ((H - 1 - n) * r) r (rowLoop H r n m) := rfl

theorem wf_rowLoop {m : Memory} (h : Memory.wf m) (H r n : Nat) : Memory.wf (rowLoop H r n m) :=
  wf_loopUpTo (fun _ _ hm => wf_swapBytes hm _ _ _) h n

/-- After `n` of its exchanges the loop of R151 has mirrored the `n` first and the `n` last of `H` rows. -/
theorem readByte_rowLoop {m : Memory} (h : Memory.wf m) {H r n : Nat} (hn : n ≤ H / 2) {j x : Nat} (hj : j < H)
    (hx : x < r) :
    Memory.readByte (rowLoop H r n m) (j * r + x) =
      Memory.readByte m ((if j < n ∨ H - 1 - j < n then H - 1 - j else j) * r + x) := by
  induction n generalizing j with
  | zero => simp [rowLoop, loopUpTo]
  | succ n ih =>
    rw [rowLoop_succ, readByte_swapRows (wf_rowLoop h H r n) (by omega) hx, ih (by omega) (by split_ifs <;> omega)]
    congr 3
    split_ifs <;> omega

/-- The loop of R151 changes no byte from `LEN` on. -/
theorem readByte_rowLoop_of_le {m : Memory} (h : Memory.wf m) {H r n k : Nat} (hn : n ≤ H / 2) (hk : H * r ≤ k) :
    Memory.readByte (rowLoop H r n m) k = Memory.readByte m k := by
  induction n with
  | zero => rfl
  | succ n ih =>
    have hlow : n * r + r ≤ (H - 1 - n) * r := by
      rw [← Nat.succ_mul]
      exact Nat.mul_le_mul_right r (by omega)
    have hhigh : (H - 1 - n) * r + r ≤ H * r := by
      rw [← Nat.succ_mul]
      exact Nat.mul_le_mul_right r (by omega)
    rw [rowLoop_succ, readByte_swapBytes (wf_rowLoop h H r n) hlow, if_neg (by omega), if_neg (by omega),
      ih (by omega)]

/-- The in-place procedure of R151 leaves what the functional form does (R153). -/
theorem flipVInPlace_eq {b : Buffer} (h : Memory.wf b.pix) : flipVInPlace b = (flipV b).pix := by
  rw [flipVInPlace_eq_rowLoop]
  refine Memory.ext_of_wf (wf_rowLoop h _ _ _) (Memory.wf_remap _ _) fun k => ?_
  rw [readByte_flipV]
  rcases Nat.lt_or_ge k (bufLen b) with hk | hk
  · obtain ⟨i, j, c, hi, hj, hc, rfl⟩ := exists_pixel hk
    rw [mirrorRow_pixel hi hj hc, pixelOff_add, pixelOff_add,
      readByte_rowLoop h le_rfl hj (column_lt_rowLen hi hc)]
    congr 3
    split_ifs <;> omega
  · rw [mirrorRow_of_le hk, readByte_rowLoop_of_le h le_rfl (by rwa [← bufLen_eq])]

/-! ## FLIPV -/

/-- The opcode of FLIPV (R86). -/
theorem decodeDescriptor_flipv {d : Desc} (h : descOp d = 0x05) : decodeDescriptor d = .ok .flipv := by
  unfold decodeDescriptor
  rw [h]
  rfl

/-- Each pixel of a top-bottom mirrored buffer is the one of the mirrored row (R151). -/
theorem pixelByte_flipV {b : Buffer} {i j c : Nat} (hi : i < b.width.toNat) (hj : j < b.height.toNat)
    (hc : c < bppBytes b.bpp) : pixelByte (flipV b) i j c = pixelByte b i (b.height.toNat - 1 - j) c := by
  rw [pixelByte, pixelByte, readByte_flipV, ← mirrorRow_pixel hi hj hc]
  rfl

/-- Settles O28: the loop leaves the top-bottom mirror, whose bytes are those of the mirrored rows. -/
theorem flipvMirrorsTopToBottom : Obligations.FlipvMirrorsTopToBottom := by
  refine ⟨fun d h => decodeDescriptor_flipv h, fun s hs hm => ?_⟩
  dsimp only
  rw [flipVInPlace_eq hm]
  refine ⟨⟨(List.range (rowLen s.buf)).map (Config.freeLineByte s.draws), s.draws + 1, by simp [rowLen], ?_⟩,
    fun i j c hi hj hc => pixelByte_flipV hi hj hc, fun k hk => ?_⟩
  · exact congrArg Host.Outcome.next (finish_of_atRest _ hs)
  · exact (readByte_flipV s.buf k).trans (by rw [mirrorRow_of_le hk])

end Sys2Proof.Machine
end

