-- ==== Sys2Proof/Proofs/StalledSink.lean ====
section
/-! PROOFS. CWRITE to a sink that stops answering (20_memory R59, 70_step R267, log 9): a write of the file's next part
goes on or waits, so each phase passes on or waits by how many bytes of the file the sink takes. -/

namespace Sys2Proof.Machine

/-! ## The file's parts -/

@[simp] theorem length_headerBytes (h : Bytes18) : (headerBytes h).length = 18 := length_leBytes _ _

@[simp] theorem length_payloadBytes (b : Buffer) : (payloadBytes b).length = bufLen b := Memory.length_readBytes _ _ _

@[simp] theorem length_footerBytes (p : Params) : (footerBytes p).length = 26 := by simp [footerBytes]

/-- The file is 44 bytes longer than pixel memory (R172). -/
@[simp] theorem length_fileBytes (p : Params) (b : Buffer) (vf : Byte) :
    (fileBytes p b vf).length = 44 + bufLen b := by
  simp only [fileBytes, List.length_append, length_headerBytes, length_payloadBytes, length_footerBytes]
  omega

/-! ## Writing the parts -/

/-- A CWRITE of which the sink has taken the first `p` bytes of the file. -/
def writing (s : State) (vf : Byte) (p : Nat) : State :=
  { s with
    dstOpen := true
    out := some ((fileBytes s.params s.buf vf).take p)
    pos := p
    hdr := writtenHeader s.buf vf }

section Stalling
variable {s : State} {vf : Byte} {n : Nat}

/-- The next part of the file to a sink that takes `n` bytes in all: the whole part, or up to byte `n` and a wait. -/
theorem dstWrite_writing {pre v post : List Byte} (hs : s.sink = .stalling n)
    (hf : fileBytes s.params s.buf vf = pre ++ v ++ post) (hn : pre.length ≤ n) :
    dstWrite pre.length v (writing s vf pre.length) =
      if pre.length + v.length ≤ n then (.complete, writing s vf (pre.length + v.length))
      else (.waits, writing s vf n) := by
  have htake : ∀ k ≤ v.length, (fileBytes s.params s.buf vf).take (pre.length + k) = pre ++ v.take k := by
    intro k hk
    rw [hf, List.append_assoc, List.take_length_add_append, List.take_append_of_le_length hk]
  have hpre : (fileBytes s.params s.buf vf).take pre.length = pre := by simpa using htake 0 (Nat.zero_le _)
  unfold dstWrite
  simp only [writing, Nat.sub_self, List.drop_zero, hs]
  split_ifs with h
  · have hall := htake v.length le_rfl
    rw [List.take_length] at hall
    simp [sinkTake, hpre, hall]
  · have hpart := htake (n - pre.length) (by omega)
    rw [Nat.add_sub_cancel' hn] at hpart
    simp [sinkTake, hpre, hpart, Nat.add_sub_cancel' hn]

theorem cwriteHeader_writing (hs : s.sink = .stalling n) :
    cwriteHeader (writing s vf 0) =
      if 18 ≤ n then cwritePayload (writing s vf 18) else { writing s vf n with phase := .wHeader } := by
  have hw := dstWrite_writing (pre := []) (v := headerBytes (writtenHeader s.buf vf)) hs
    (by rw [fileBytes, List.nil_append, List.append_assoc]) (Nat.zero_le n)
  simp only [List.length_nil, length_headerBytes, Nat.zero_add] at hw
  rw [cwriteHeader, show (writing s vf 0).hdr = writtenHeader s.buf vf from rfl, hw]
  split_ifs <;> rfl

theorem cwritePayload_writing (hs : s.sink = .stalling n) (hn : 18 ≤ n) :
    cwritePayload (writing s vf 18) =
      if 18 + bufLen s.buf ≤ n then cwriteFooter (writing s vf (18 + bufLen s.buf))
      else { writing s vf n with phase := .wPayload } := by
  have hw := dstWrite_writing (pre := headerBytes (writtenHeader s.buf vf)) (v := payloadBytes s.buf) hs rfl
    (by simpa using hn)
  simp only [length_headerBytes, length_payloadBytes] at hw
  rw [cwritePayload, show (writing s vf 18).buf = s.buf from rfl, Config.headerLen, hw]
  split_ifs <;> rfl

theorem cwriteFooter_writing (hs : s.sink = .stalling n) (hn : 18 + bufLen s.buf ≤ n) :
    cwriteFooter (writing s vf (18 + bufLen s.buf)) =
      if 44 + bufLen s.buf ≤ n then finish respOk (writing s vf (44 + bufLen s.buf))
      else { writing s vf n with phase := .wFooter } := by
  have hw := dstWrite_writing (pre := headerBytes (writtenHeader s.buf vf) ++ payloadBytes s.buf)
    (v := footerBytes s.params) (post := []) (vf := vf) hs (by rw [List.append_nil]; rfl) (by simpa using hn)
  simp only [List.length_append, length_headerBytes, length_payloadBytes, length_footerBytes,
    Nat.add_right_comm 18 _ 26, Nat.reduceAdd] at hw
  rw [cwriteFooter, show (writing s vf (18 + bufLen s.buf)).buf = s.buf from rfl,
    show (writing s vf (18 + bufLen s.buf)).params = s.params from rfl, Config.headerLen, hw]
  split_ifs <;> rfl

end Stalling

/-- CWRITE with a legal flag to a sink that opens starts with its header, nothing taken yet (R170). -/
theorem exec_cwrite_of_opens {s : State} {vf : Byte} (hv : vf = 0 ∨ vf = 1) (hs : s.sink ≠ .closed) :
    exec (.cwrite vf) s = .next (cwriteHeader (writing s vf 0)) := by
  rw [exec, execCwrite, if_pos hv, cwriteOpen]
  split
  · next hc => exact absurd hc hs
  · rfl

/-- The end of a CWRITE that ran at rest hands its bytes over and leaves free values in `POS` and `HDR`. -/
theorem finish_writing {s : State} (h : s.AtRest) (r : Resp) (vf : Byte) (p : Nat) :
    finish r (writing s vf p) = { s with
      resp := r
      outs := s.outs ++ [(fileBytes s.params s.buf vf).take p]
      pos := Config.freePos s.draws, hdr := Config.freeHdr s.draws, draws := s.draws + 1 } := by
  obtain ⟨hp, hs, hd, hn, ho⟩ := h
  simp [finish, writing, hp, hs, hd, hn, ho]

/-- Settles O36: the phase that meets byte `n` waits; a sink that takes the whole file passes all three. -/
theorem stalledSinkLeavesCwriteWaiting : Obligations.StalledSinkLeavesCwriteWaiting := by
  intro s vf n hr hv hs
  rw [exec_cwrite_of_opens hv (by rw [hs]; nofun), cwriteHeader_writing hs]
  refine ⟨fun hn => ?_, fun hn => ?_⟩
  · by_cases h1 : n < 18
    · rw [if_neg (by omega), if_pos h1]
      rfl
    · rw [if_pos (by omega), cwritePayload_writing hs (by omega), if_neg h1]
      by_cases h2 : n < 18 + bufLen s.buf
      · rw [if_neg (by omega), if_pos h2]
        rfl
      · rw [if_pos (by omega), cwriteFooter_writing hs (by omega), if_neg (by omega), if_neg h2]
        rfl
  · rw [if_pos (by omega), cwritePayload_writing hs (by omega), if_pos (by omega),
      cwriteFooter_writing hs (by omega), if_pos hn, finish_writing hr,
      List.take_of_length_le (length_fileBytes _ _ _).le]
    rfl

end Sys2Proof.Machine
end

