-- ==== Sys2Proof/Proofs/StalledSource.lean ====
section
/-! PROOFS. CREAD of a source that stops answering (43_codec_read R190 to R202, 70_step R267, log 9): the header's fields
are bytes of the stream, each check of the header ends the command or goes on, and the payload is loaded or waited for. -/

namespace Sys2Proof.Machine

/-! ## Header fields from the stream's bytes (R92, R96) -/

/-- The header a stream starts with. -/
def streamHeader (S : List Byte) : Bytes18 := BitVec.ofNat 144 (leNat (S.take 18))

section StreamHeader
variable {S : List Byte} (h : 18 ≤ S.length)
include h

theorem streamHeader_byte {i : Nat} (hi : i < 18) : (streamHeader S).extractLsb' (8 * i) 8 = S.getD i 0 := by
  rw [streamHeader, extractLsb'_leNat_byte (by simpa using h), List.getD_eq_getElem?_getD,
    List.getElem?_take_of_lt hi, ← List.getD_eq_getElem?_getD]

theorem streamHeader_half {i : Nat} (hi : i + 1 < 18) :
    (streamHeader S).extractLsb' (8 * i) 16 = S.getD (i + 1) 0 ++ S.getD i 0 := by
  rw [← streamHeader_byte h hi, ← streamHeader_byte h (Nat.lt_of_succ_lt hi)]
  exact (extractLsb'_append_extractLsb' _ (Nat.mul_succ 8 i)).symm

theorem streamHeader_type : headerType (streamHeader S) = S.getD 2 0 := streamHeader_byte h (i := 2) (by decide)
theorem streamHeader_width : (headerFields (streamHeader S)).width = S.getD 13 0 ++ S.getD 12 0 :=
  streamHeader_half h (i := 12) (by decide)
theorem streamHeader_height : (headerFields (streamHeader S)).height = S.getD 15 0 ++ S.getD 14 0 :=
  streamHeader_half h (i := 14) (by decide)
theorem streamHeader_bits : (headerFields (streamHeader S)).bitsperpixel = S.getD 16 0 :=
  streamHeader_byte h (i := 16) (by decide)
theorem streamHeader_orientation : (headerFields (streamHeader S)).imagedescriptor = S.getD 17 0 :=
  streamHeader_byte h (i := 17) (by decide)

/-- No bit of the header's bytes is dropped. -/
theorem headerBytes_streamHeader : headerBytes (streamHeader S) = S.take 18 := by
  have hl : (S.take 18).length = 18 := by simpa using h
  have hlt := leNat_lt (S.take 18)
  rw [hl] at hlt
  have hb := leBytes_leNat (S.take 18)
  rw [hl] at hb
  rw [headerBytes, streamHeader, BitVec.toNat_ofNat, Nat.mod_eq_of_lt hlt, hb]

end StreamHeader

/-! ## The checks of the header, each of which ends CREAD or lets it go on (R193 to R197) -/

/-- Validation refuses a header with a dimension that is not positive or an illegal depth (R195). -/
theorem headerBuffer_of_illegal {h : Bytes18} (hi : ¬(0 < (headerFields h).width.toInt ∧
    0 < (headerFields h).height.toInt ∧ (headerFields h).bitsperpixel.toNat ∈ [8, 24, 32])) :
    headerBuffer h = none := by
  rcases hb : headerBuffer h with _ | b
  · rfl
  · obtain ⟨hw, hh, hbits, -⟩ := headerBuffer_eq_some hb
    refine absurd ⟨hw, hh, ?_⟩ hi
    unfold bppOfBits at hbits
    split at hbits <;> simp_all

/-- A header with legal values asks for a buffer of its dimensions and depth (R194 to R196). -/
theorem headerBuffer_of_legal {h : Bytes18} {b : Bpp} (hw : 0 < (headerFields h).width.toInt)
    (hh : 0 < (headerFields h).height.toInt) (hb : (headerFields h).bitsperpixel.toNat = 8 * bppBytes b) :
    headerBuffer h = some ⟨(headerFields h).width, (headerFields h).height, b, []⟩ := by
  have hbits : bppOfBits (headerFields h).bitsperpixel = some b := by
    rw [bppOfBits, hb]
    cases b <;> rfl
  simp only [headerBuffer, if_pos (And.intro hw hh), hbits]

section Validate
variable {s : State} {nb : Buffer}

theorem creadValidate_of_illegal (h : headerBuffer s.hdr = none) :
    creadValidate s = finish (respError .invalidHeaderValues) s := by
  rw [creadValidate, h]
  rfl

theorem creadValidate_of_not_fits (h : headerBuffer s.hdr = some nb)
    (hf : ∃ cap ∈ s.params.pixmemBytes, cap < bufLen nb) :
    creadValidate s = finish (respError .capacityExceeded) s := by
  simp only [creadValidate, h, creadAlloc, fits_eq_false.mpr hf]
  rfl

variable (h : headerBuffer s.hdr = some nb) (hf : ∀ cap ∈ s.params.pixmemBytes, bufLen nb ≤ cap)
include h hf

theorem creadValidate_of_unsupported (ht : (headerType s.hdr).toNat ∉ [2, 3]) :
    creadValidate s = finish (respError .unsupportedDataType) { s with nb := some nb } := by
  have : ¬(headerType s.hdr = 2 ∨ headerType s.hdr = 3) := by
    rintro (e | e) <;> exact ht (by rw [e]; decide)
  simp only [creadValidate, h, creadAlloc, fits_eq_true.mpr hf, if_true, creadDispatch, if_neg this, raise_eq]

theorem creadValidate_of_accepted (ht : (headerType s.hdr).toNat ∈ [2, 3]) :
    creadValidate s = creadPayload { s with nb := some nb } := by
  have : headerType s.hdr = 2 ∨ headerType s.hdr = 3 := by
    simp only [List.mem_cons, List.not_mem_nil, or_false] at ht
    exact ht.imp (BitVec.eq_of_toNat_eq ·) (BitVec.eq_of_toNat_eq ·)
  simp only [creadValidate, h, creadAlloc, fits_eq_true.mpr hf, if_true, creadDispatch, if_pos this]

end Validate

/-! ## Reading from a stream (R57, R267) -/

/-- A stream of either kind answers the bytes it has. -/
theorem srcRead_of_le {src : Source} {S : List Byte} {pos n : Nat} (hs : src = .stream S ∨ src = .stalling S)
    (hn : pos + n ≤ S.length) : srcRead src pos n = .complete ((S.drop pos).take n) := by
  rcases hs with rfl | rfl <;> simp only [srcRead, if_pos hn]

/-- A stalled stream does not answer a byte it has not. -/
theorem srcRead_stalling_of_lt {S : List Byte} {pos n : Nat} (hn : S.length < pos + n) :
    srcRead (.stalling S) pos n = .waits := by
  simp only [srcRead, if_neg (not_le.mpr hn)]

/-- A CREAD that has read the header of the stream `S` and holds the stream. -/
def validating (s : State) (S : List Byte) : State :=
  { s with srcOpen := true, hdr := streamHeader S, pos := 18 }

section Read
variable {s : State} {S : List Byte}

/-- CREAD of a stream with a whole header goes to validation with the stream held (R191, R192). -/
theorem creadOpen_of_header (hs : s.source = .stream S ∨ s.source = .stalling S) (hl : 18 ≤ S.length) :
    creadOpen s = creadValidate (validating s S) := by
  have hr : srcRead s.source 0 18 = .complete (S.take 18) := srcRead_of_le hs (by omega)
  have ho : creadOpen s = creadHeader { s with srcOpen := true, pos := 0 } := by
    rcases hs with hs | hs <;> simp only [creadOpen, hs]
  rw [ho, creadHeader, Config.headerLen, hr]
  rfl

/-- CREAD of a stalled stream without a whole header waits in `R_HEADER` (R192, R267). -/
theorem creadOpen_of_stalled_header (hs : s.source = .stalling S) (hl : S.length < 18) :
    creadOpen s = { s with phase := .rHeader, srcOpen := true, pos := S.length } := by
  have hr : srcRead (.stalling S) 0 18 = .waits := srcRead_stalling_of_lt (by omega)
  simp only [creadOpen, creadHeader, hs, Config.headerLen, hr, srcLength]

/-- `R_PAYLOAD` of a stalled stream without the whole payload waits (R198, R267). -/
theorem creadPayload_of_stalled {nb : Buffer} (hn : s.nb = some nb) (hs : s.source = .stalling S)
    (hl : S.length < 18 + bufLen nb) : creadPayload s = { s with phase := .rPayload, pos := S.length } := by
  simp only [creadPayload, hn, hs, Config.headerLen, srcRead_stalling_of_lt hl, srcLength]

/-- `R_PAYLOAD` of a stream with the whole payload loads it upright and commits (R198 to R200). -/
theorem creadPayload_of_whole {nb : Buffer} (hn : s.nb = some nb)
    (hs : s.source = .stream S ∨ s.source = .stalling S) (hl : 18 + bufLen nb ≤ S.length) :
    creadPayload s = finish respOk { s with
      pos := 18 + bufLen nb
      buf := upright s.hdr { nb with pix := Memory.ofBytes 0 ((S.drop 18).take (bufLen nb)) }
      nb := some (upright s.hdr { nb with pix := Memory.ofBytes 0 ((S.drop 18).take (bufLen nb)) }) } := by
  simp only [creadPayload, hn, Config.headerLen, srcRead_of_le hs hl]
  exact creadOrientV_eq rfl

end Read

/-- A bit of a byte as a test of its mask. -/
theorem and_twoPow_eq_zero (d : Byte) {i : Nat} (hi : i < 8) : d &&& BitVec.twoPow 8 i = 0 ↔ d.getLsbD i = false := by
  have hne : BitVec.twoPow 8 i ≠ 0 := fun h => by
    have := congrArg (·.getLsbD i) h
    simp [hi] at this
  rw [BitVec.and_twoPow]
  split_ifs with h
  · exact iff_of_false hne (by simp [h])
  · exact iff_of_true rfl (by simpa using h)

/-- The two orientation bits as tests of the descriptor byte (R95, R199). -/
theorem upright_eq (h : Bytes18) (b : Buffer) :
    upright h b =
      let d := (headerFields h).imagedescriptor
      let v := if d &&& 0x20 = 0 then flipV b else b
      if d &&& 0x10 ≠ 0 then flipH v else v := by
  have h5 : (headerFields h).imagedescriptor &&& 0x20 = 0 ↔ topOrigin h = false :=
    and_twoPow_eq_zero _ (i := 5) (by decide)
  have h4 : (headerFields h).imagedescriptor &&& 0x10 = 0 ↔ rightOrigin h = false :=
    and_twoPow_eq_zero _ (i := 4) (by decide)
  simp only [upright, ne_eq, h5, h4]
  cases topOrigin h <;> cases rightOrigin h <;> rfl

/-- The end of a CREAD that ran at rest: the buffer it leaves, and free values in `POS` and `HDR`. -/
theorem finish_reading {s : State} (hr : s.AtRest) (r : Resp) (b : Buffer) (o : Option Buffer) (p : Nat)
    (h : Bytes18) :
    finish r { s with buf := b, nb := o, srcOpen := true, pos := p, hdr := h } = { s with
      buf := b, resp := r
      pos := Config.freePos s.draws, hdr := Config.freeHdr s.draws, draws := s.draws + 1 } := by
  obtain ⟨hp, hs, hd, hn, ho⟩ := hr
  simp [finish, hp, hs, hd, hn, ho]

/-- Settles O42: the header's checks in their order, then the payload loaded or waited for. -/
theorem stalledSourceLeavesCreadWaiting : Obligations.StalledSourceLeavesCreadWaiting := by
  intro s S hr hs
  refine ⟨Config.freePos s.draws, Config.freeHdr s.draws, s.draws + 1, ?_⟩
  intro ends w h
  simp only [exec, execCread, Host.Outcome.next.injEq]
  refine ⟨creadOpen_of_stalled_header hs, fun hl => ?_⟩
  rw [creadOpen_of_header (.inr hs) hl]
  have hw : (headerFields (streamHeader S)).width = w := streamHeader_width hl
  have hh : (headerFields (streamHeader S)).height = h := streamHeader_height hl
  have hbits := streamHeader_bits hl
  have htype := streamHeader_type hl
  refine ⟨fun hi => ?_, fun b hwpos hhpos hb => ?_⟩
  · rw [← hw, ← hh, ← hbits] at hi
    rw [creadValidate_of_illegal (s := validating s S) (headerBuffer_of_illegal hi)]
    exact finish_reading hr _ _ _ _ _
  · have hnb : headerBuffer (validating s S).hdr = some ⟨w, h, b, []⟩ := by
      rw [← hw, ← hh]
      exact headerBuffer_of_legal (by rwa [← hw] at hwpos) (by rwa [← hh] at hhpos) (by rwa [← hbits] at hb)
    rw [show w.toNat * h.toNat * bppBytes b = bufLen ⟨w, h, b, []⟩ from rfl, ← htype]
    refine ⟨fun hc => ?_, fun hf ht => ?_, fun hf ht hlt => ?_, fun hf ht hle => ?_⟩
    · rw [creadValidate_of_not_fits hnb hc]
      exact finish_reading hr _ _ _ _ _
    · rw [creadValidate_of_unsupported hnb hf ht]
      exact finish_reading hr _ _ _ _ _
    · refine ⟨streamHeader S, headerBytes_streamHeader hl, ?_⟩
      exact (creadValidate_of_accepted hnb hf ht).trans (creadPayload_of_stalled rfl hs hlt)
    · rw [creadValidate_of_accepted hnb hf ht, ← streamHeader_orientation hl]
      refine Eq.trans (creadPayload_of_whole rfl (.inr hs) hle) ?_
      refine Eq.trans (finish_reading hr _ _ _ _ _) ?_
      rw [upright_eq]
      rfl

end Sys2Proof.Machine
end

