-- ==== Sys2Proof/Proofs/Unobservable.lean ====
section
/-! PROOFS. What no command reads (10_state R30, R32 to R34, 60_exceptions R248): a run from a state whose `RESP`,
`LINEBUF` or counter of free values has another content is the same run, and `POS` and `HDR` are written before they are
read. -/

namespace Sys2Proof.Machine

/-! ## Runs from two states that differ in what no phase reads -/

/-- A change to what no phase reads: `RESP`, `LINEBUF` and the counter of free values. -/
structure Retouch where
  resp    : Resp → Resp
  lineBuf : List Byte → List Byte
  draws   : Nat → Nat

def Retouch.apply (g : Retouch) (s : State) : State :=
  { s with resp := g.resp s.resp, lineBuf := g.lineBuf s.lineBuf, draws := g.draws s.draws }

section Fields
variable (g : Retouch) (s : State)

@[simp] theorem Retouch.apply_buf : (g.apply s).buf = s.buf := rfl
@[simp] theorem Retouch.apply_pos : (g.apply s).pos = s.pos := rfl
@[simp] theorem Retouch.apply_hdr : (g.apply s).hdr = s.hdr := rfl
@[simp] theorem Retouch.apply_source : (g.apply s).source = s.source := rfl
@[simp] theorem Retouch.apply_sink : (g.apply s).sink = s.sink := rfl
@[simp] theorem Retouch.apply_params : (g.apply s).params = s.params := rfl

end Fields

/-- Two runs of a command that end alike from states that a retouch tells apart, or wait so. -/
inductive Alike (g : Retouch) : State → State → Prop where
  | ends (r : Resp) (u : State) : Alike g (finish r u) (finish r (g.apply u))
  | waits (u : State) (h : u.phase ≠ .idle) : Alike g u (g.apply u)

section Phases
variable (g : Retouch)

theorem creadPayload_alike (s : State) (nb : Buffer) :
    Alike g (creadPayload { s with nb := some nb }) (creadPayload { g.apply s with nb := some nb }) := by
  unfold creadPayload
  dsimp only [Retouch.apply_source]
  split
  · exact .ends _ { s with nb := some nb }
  · exact .waits { s with nb := some nb, phase := .rPayload, pos := srcLength s.source } (by simp)
  · next bytes _ =>
    rw [creadOrientV_eq rfl, creadOrientV_eq rfl]
    exact .ends _ { s with
      pos := Config.headerLen + bufLen nb
      buf := upright s.hdr { nb with pix := Memory.ofBytes 0 bytes }
      nb := some (upright s.hdr { nb with pix := Memory.ofBytes 0 bytes }) }

theorem creadValidate_alike (s : State) : Alike g (creadValidate s) (creadValidate (g.apply s)) := by
  unfold creadValidate
  rw [Retouch.apply_hdr]
  split
  · exact .ends _ _
  · next nb _ =>
    unfold creadAlloc
    rw [Retouch.apply_params]
    split
    · unfold creadDispatch
      dsimp only
      rw [Retouch.apply_hdr]
      split
      · exact creadPayload_alike g s nb
      · exact .ends _ { s with nb := some nb }
    · exact .ends _ _

theorem dstWrite_apply (start : Nat) (v : List Byte) (s : State) :
    dstWrite start v (g.apply s) = ((dstWrite start v s).1, g.apply (dstWrite start v s).2) := by
  unfold dstWrite
  dsimp only
  rw [Retouch.apply_sink, Retouch.apply_pos]
  split
  · rfl
  · rfl
  · split <;> rfl
  · split <;> rfl

theorem cwriteFooter_alike (s : State) : Alike g (cwriteFooter s) (cwriteFooter (g.apply s)) := by
  unfold cwriteFooter
  rw [Retouch.apply_buf, Retouch.apply_params, dstWrite_apply]
  rcases dstWrite (Config.headerLen + bufLen s.buf) (footerBytes s.params) s with ⟨_ | _ | _, t⟩
  · exact .ends _ t
  · exact .ends _ t
  · exact .waits { t with phase := .wFooter } (by simp)

theorem cwritePayload_alike (s : State) : Alike g (cwritePayload s) (cwritePayload (g.apply s)) := by
  unfold cwritePayload
  rw [Retouch.apply_buf, dstWrite_apply]
  rcases dstWrite Config.headerLen (payloadBytes s.buf) s with ⟨_ | _ | _, t⟩
  · exact cwriteFooter_alike g t
  · exact .ends _ t
  · exact .waits { t with phase := .wPayload } (by simp)

theorem cwriteHeader_alike (s : State) : Alike g (cwriteHeader s) (cwriteHeader (g.apply s)) := by
  unfold cwriteHeader
  rw [Retouch.apply_hdr, dstWrite_apply]
  rcases dstWrite 0 (headerBytes s.hdr) s with ⟨_ | _ | _, t⟩
  · exact cwritePayload_alike g t
  · exact .ends _ t
  · exact .waits { t with phase := .wHeader } (by simp)

theorem creadHeader_alike (s : State) : Alike g (creadHeader s) (creadHeader (g.apply s)) := by
  unfold creadHeader
  rw [Retouch.apply_source]
  split
  · exact .ends _ _
  · exact .waits { s with phase := .rHeader, pos := srcLength s.source } (by simp)
  · exact creadValidate_alike g { s with hdr := _, pos := Config.headerLen }

theorem creadOpen_alike (s : State) : Alike g (creadOpen s) (creadOpen (g.apply s)) := by
  unfold creadOpen
  rw [Retouch.apply_source]
  split
  · exact .ends _ _
  · exact creadHeader_alike g { s with srcOpen := true, pos := 0 }

theorem cwriteOpen_alike (vf : Byte) (s : State) : Alike g (cwriteOpen vf s) (cwriteOpen vf (g.apply s)) := by
  unfold cwriteOpen
  rw [Retouch.apply_sink]
  split
  · exact .ends _ _
  · exact cwriteHeader_alike g
      { s with dstOpen := true, out := some [], pos := 0, hdr := writtenHeader s.buf vf }

/-- Every instruction but FLIPV, which draws a free `LINEBUF`, runs alike. -/
theorem exec_alike {i : Instr} (hi : i ≠ .flipv) (s : State) :
    ∃ t t', exec i s = .next t ∧ exec i (g.apply s) = .next t' ∧ Alike g t t' := by
  cases i with
  | get | qw | qh | qbpp => exact ⟨_, _, rfl, rfl, .ends _ s⟩
  | fliph => exact ⟨_, _, rfl, rfl, .ends _ { s with buf := flipH s.buf }⟩
  | flipv => exact absurd rfl hi
  | construct w h m =>
    refine ⟨_, _, rfl, rfl, ?_⟩
    cases bppOfByte m with
    | none => exact .ends _ s
    | some b =>
      rw [Retouch.apply_params]
      dsimp only
      split
      · exact .ends _ { s with buf := ⟨clampDim w, clampDim h, b, []⟩ }
      · exact .ends _ s
  | set x y n c0 c1 c2 c3 =>
    refine ⟨_, _, rfl, rfl, ?_⟩
    rw [Retouch.apply_buf]
    cases bppOfByte n with
    | none => exact .ends _ s
    | some b =>
      dsimp only
      split
      · exact .ends _ { s with buf := { s.buf with
          pix := Memory.writeBytes s.buf.pix (operandOff s.buf x y) (setBytes s.buf.bpp b c0 c1 c2 c3) } }
      · exact .ends _ s
  | rawrd off =>
    refine ⟨_, _, rfl, rfl, ?_⟩
    rw [Retouch.apply_buf]
    split <;> exact .ends _ s
  | rawwr off b =>
    refine ⟨_, _, rfl, rfl, ?_⟩
    rw [Retouch.apply_buf]
    split
    · exact .ends _ { s with buf := { s.buf with pix := Memory.writeByte s.buf.pix off.toNat b } }
    · exact .ends _ s
  | cwrite vf =>
    refine ⟨_, _, rfl, rfl, ?_⟩
    split
    · exact cwriteOpen_alike g vf s
    · exact .ends _ s
  | cread => exact ⟨_, _, rfl, rfl, creadOpen_alike g s⟩
  | fileHdrRawTruecolor f | fileHdrRawGrayscale f =>
    exact ⟨_, _, rfl, rfl, creadValidate_alike g { s with hdr := _, pos := Config.headerLen }⟩

end Phases

/-! ## `RESP` -/

/-- The end of a command overwrites what `RESP` held. -/
theorem Alike.eq_of_idle {f : Resp → Resp} {t t' : State} (h : Alike ⟨f, id, id⟩ t t') (hp : t.phase = .idle) :
    t = t' := by
  cases h with
  | ends r u => rfl
  | waits u hu => exact absurd hp hu

/-- Settles O52: the two runs end alike, and ending overwrites `RESP`. -/
theorem responsesAreNotSticky : Obligations.ResponsesAreNotSticky := by
  intro i s t r _ ht hp
  by_cases hi : i = .flipv
  · subst hi
    exact ht
  · obtain ⟨u, u', hu, hu', hal⟩ := exec_alike ⟨fun _ => r, id, id⟩ hi s
    obtain rfl := Host.Outcome.next.inj (hu.symm.trans ht)
    rw [hal.eq_of_idle hp]
    exact hu'

/-! ## `POS`, `HDR` and `LINEBUF` -/

/-- A state without what the hidden registers and the counter of free values hold (R32 to R34, log 7). -/
def visible (s : State) : State := { s with pos := 0, hdr := 0, lineBuf := [], draws := 0 }

/-- Runs that end or wait alike, but for `LINEBUF` and the counter, look alike. -/
theorem Alike.visible_eq {l : List Byte → List Byte} {d : Nat → Nat} {t t' : State} (h : Alike ⟨id, l, d⟩ t t') :
    visible t = visible t' := by
  cases h <;> rfl

/-- What `POS` and `HDR` held before a command cannot be seen after it: the codec writes both before it reads them. -/
theorem exec_visible_of_pos_hdr (i : Instr) (s : State) (p : Nat) (h : Bytes18) :
    ∃ t t', exec i s = .next t ∧ exec i { s with pos := p, hdr := h } = .next t' ∧ visible t = visible t' := by
  cases i with
  | get | fliph | flipv | qw | qh | qbpp | fileHdrRawTruecolor | fileHdrRawGrayscale => exact ⟨_, _, rfl, rfl, rfl⟩
  | construct w h m =>
    refine ⟨_, _, rfl, rfl, ?_⟩
    cases bppOfByte m with
    | none => rfl
    | some b => dsimp only; split <;> rfl
  | set x y n c0 c1 c2 c3 =>
    refine ⟨_, _, rfl, rfl, ?_⟩
    cases bppOfByte n with
    | none => rfl
    | some b => dsimp only; split <;> rfl
  | rawrd off | rawwr off b =>
    refine ⟨_, _, rfl, rfl, ?_⟩
    dsimp only
    split <;> rfl
  | cwrite vf =>
    refine ⟨_, _, rfl, rfl, ?_⟩
    split
    · unfold cwriteOpen
      dsimp only
      split <;> rfl
    · rfl
  | cread =>
    refine ⟨_, _, rfl, rfl, ?_⟩
    unfold creadOpen
    dsimp only
    split
    · rfl
    · unfold creadHeader
      dsimp only
      split <;> rfl

/-- What `LINEBUF` and the counter of free values held before a command cannot be seen after it. -/
theorem exec_visible_of_lineBuf_draws (i : Instr) (s : State) (l : List Byte) (d : Nat) :
    ∃ t t', exec i s = .next t ∧ exec i { s with lineBuf := l, draws := d } = .next t' ∧ visible t = visible t' := by
  by_cases hi : i = .flipv
  · subst hi
    exact ⟨_, _, rfl, rfl, rfl⟩
  · obtain ⟨t, t', ht, ht', hal⟩ := exec_alike ⟨id, fun _ => l, fun _ => d⟩ hi s
    exact ⟨t, t', ht, ht', hal.visible_eq⟩

/-- Settles O53: first `POS` and `HDR` are exchanged, then `LINEBUF` and the counter. -/
theorem hiddenRegistersAreUnobservable : Obligations.HiddenRegistersAreUnobservable := by
  intro i s t t' p h l d _ ht ht'
  obtain ⟨u, v, hu, hv, huv⟩ := exec_visible_of_pos_hdr i s p h
  obtain ⟨v', w, hv', hw, hvw⟩ := exec_visible_of_lineBuf_draws i { s with pos := p, hdr := h } l d
  obtain rfl := Host.Outcome.next.inj (hu.symm.trans ht)
  obtain rfl := Host.Outcome.next.inj (hv.symm.trans hv')
  obtain rfl := Host.Outcome.next.inj (hw.symm.trans ht')
  exact huv.trans hvw

end Sys2Proof.Machine
end

