-- ==== Sys2Proof/Proofs/RawBytes.lean ====
section
/-! PROOFS. Raw byte access and pixel access see one memory (20_memory R51 to R54, R63; 40_buffer_ops R122 to R125,
R129): a raw read after a raw write, a raw read inside a pixel's slot, and that every slot lies inside pixel memory. -/

namespace Sys2Proof.Machine

/-! ## The raw commands below `LEN` -/

/-- RAWRD below `LEN` answers the byte at its offset (R124). -/
theorem exec_rawrd_of_lt {s : State} {o : Offset} (h : o.toNat < bufLen s.buf) :
    exec (.rawrd o) s = .next (finish (respVal ((Memory.readByte s.buf.pix o.toNat).setWidth 16)) s) := by
  rw [exec, execRawrd, if_pos h, complete_eq]

/-- RAWWR below `LEN` stores its byte and ends with success (R125). -/
theorem exec_rawwr_of_lt {s : State} {o : Offset} (b : Byte) (h : o.toNat < bufLen s.buf) :
    exec (.rawwr o b) s = .next (finish respOk
      { s with buf := { s.buf with pix := Memory.writeByte s.buf.pix o.toNat b } }) := by
  rw [exec, execRawwr, if_pos h, complete_eq]

/-- Settles O23: the RAWRD answers the byte of the memory that the RAWWR left. -/
theorem rawReadAfterRawWrite : Obligations.RawReadAfterRawWrite := by
  intro s t u o o' b _ hm ho ho' ht hu
  obtain rfl := Host.Outcome.next.inj ((exec_rawwr_of_lt b ho).symm.trans ht)
  obtain rfl := Host.Outcome.next.inj ((exec_rawrd_of_lt (by exact ho')).symm.trans hu)
  simp only [finish_resp, finish_buf, Memory.readByte_writeByte hm, BitVec.toNat_inj, respVal,
    apply_ite (BitVec.setWidth 16)]

/-! ## Pixels and offsets -/

/-- The four channels of GET's response are the colour's bytes, 0 from its length on (R122). -/
theorem channels_respColour (b : Bpp) (c : List Byte) {i : Nat} (hi : i < 4) :
    [(respColour b c).c0, (respColour b c).c1, (respColour b c).c2, (respColour b c).c3].getD i 0 = c.getD i 0 := by
  interval_cases i <;> rfl

/-- Settles O24: the raw read's offset is that of a channel of the slot GET has read. -/
theorem rawReadsSeeTheChannelsGetReturns : Obligations.RawReadsSeeTheChannelsGetReturns := by
  intro s t u x y o _ hr hle hlt ht hu
  have hslot := operandOff_add_le hr
  have hbpp := bppBytes_le s.buf.bpp
  obtain rfl := Host.Outcome.next.inj ((exec_get_of_inRange hr).symm.trans ht)
  obtain rfl := Host.Outcome.next.inj ((exec_rawrd_of_lt (hlt.trans_le hslot)).symm.trans hu)
  rw [finish_resp, finish_resp, channels_respColour _ _ (by omega), Memory.getD_readBytes _ _ _ _ (by omega),
    Nat.add_sub_cancel' hle, respVal]

/-- With dimensions at most 32767 a buffer has at most as many bytes as the largest RGBA one (R129). -/
theorem bufLen_le {b : Buffer} (hw : b.width.toNat ≤ 32767) (hh : b.height.toNat ≤ 32767) :
    bufLen b ≤ 4294705156 :=
  Nat.mul_le_mul (Nat.mul_le_mul hw hh) (bppBytes_le b.bpp)

/-- Settles O25: the bound of `LEN`, and the slot of an in-range pixel below `LEN`. -/
theorem inRangeSlotsLieInsidePixelMemory : Obligations.InRangeSlotsLieInsidePixelMemory :=
  fun _ _ _ hw hh => ⟨bufLen_le hw hh, operandOff_add_le⟩

end Sys2Proof.Machine
end

