-- ==== Sys2Proof/Proofs/LateAnswers.lean ====
section
/-! PROOFS. Codec commands whose stream answers late (20_memory R56 to R60, 70_step R267, log 9): a waiting command is
resumed in its phase, where what it read or wrote before the wait makes its end the one it has without a wait. -/

namespace Sys2Proof.Machine

/-! ## The step of a command in progress -/

/-- A header with a data type is the word of that type and its other fields (R92). -/
theorem headerWord_of_type {h : Bytes18} {c : Byte} (ht : (headerType h).toNat = c.toNat) :
    headerWord c (headerFields h) = h := by
  rw [← BitVec.eq_of_toNat_eq ht]
  exact headerWord_headerFields h

/-- A header's row run is the header arriving at CREAD (R102). -/
theorem exec_of_decodeHeader {h : Bytes18} {i : Instr} (hd : decodeHeader h = .ok i) (s : State) :
    exec i s = .next (creadHeaderArrived h s) := by
  unfold decodeHeader at hd
  split at hd
  case h_1 ht =>
    obtain rfl := Except.ok.inj hd
    rw [exec, execFileHdrRawTruecolor, headerWord_of_type ht]
  case h_2 ht =>
    obtain rfl := Except.ok.inj hd
    rw [exec, execFileHdrRawGrayscale, headerWord_of_type ht]
  case h_3 => cases hd

/-- A step in `R_HEADER` is CREAD's phase, whether the header has a row, has none or is not there (R192). -/
theorem step_of_rHeader {s : State} (hr : s.resetPin = false) (hp : s.phase = .rHeader) :
    step s = .next (creadHeader s) := by
  have hf : fetch s = fetchHeader s := by rw [fetch, if_neg (by simp [hr]), hp]
  unfold step
  rw [hf, fetchHeader]
  cases hs : srcRead s.source 0 Config.headerLen with
  | short | waits => rfl
  | complete bytes =>
    have hl : bytes.length = 18 := length_of_srcRead hs
    dsimp only
    rw [decode, if_neg (by omega), if_pos hl]
    cases hd : decodeHeader (BitVec.ofNat 144 (leNat bytes)) with
    | error e => rfl
    | ok i =>
      refine (exec_of_decodeHeader hd s).trans ?_
      rw [creadHeader, hs]

/-- A step in the middle of a command lets it go on in its phase (R267). -/
theorem step_of_inProgress {s : State} (hr : s.resetPin = false) (hp : s.phase ≠ .idle) :
    step s = .next (resume s) := by
  by_cases hh : s.phase = .rHeader
  · rw [step_of_rHeader hr hh, resume, hh]
  · have hf : fetch s = .settle (resume s) := by
      rw [fetch, if_neg (by simp [hr])]
      split
      · next h => exact absurd h hp
      · next h => exact absurd h hh
      · rfl
    rw [step, hf]

/-! ## A source that answers late -/

section Source
variable {s : State} (ho : s.srcOpen = true) (ph : Phase) (p : Nat)
include ho

/-- The payload's outcome does not depend on the phase and the position CREAD has waited at. -/
theorem creadPayload_of_phase_pos (nb : Buffer) :
    creadPayload { s with nb := some nb, phase := ph, pos := p } = creadPayload { s with nb := some nb } := by
  unfold creadPayload
  dsimp only
  split
  · simp [finish, ho]
  · rfl
  · rw [creadOrientV_eq rfl, creadOrientV_eq rfl]
    simp [finish, ho]

theorem creadValidate_of_phase_pos : creadValidate { s with phase := ph, pos := p } = creadValidate s := by
  unfold creadValidate
  dsimp only
  split
  · simp [finish, ho]
  · next nb _ =>
    unfold creadAlloc
    dsimp only
    split
    · unfold creadDispatch
      dsimp only
      split
      · exact creadPayload_of_phase_pos ho ph p nb
      · simp [finish, ho]
    · simp [finish, ho]

theorem creadHeader_of_phase_pos : creadHeader { s with phase := ph, pos := p } = creadHeader s := by
  unfold creadHeader
  dsimp only
  split
  · simp [finish, ho]
  · rfl
  · exact creadValidate_of_phase_pos (s := { s with hdr := _, pos := Config.headerLen }) ho ph Config.headerLen

end Source

/-- A CREAD that does not end from validation on has an accepted header and waits for its payload (R193 to R198). -/
theorem creadValidate_of_not_idle {s : State} (h : (creadValidate s).phase ≠ .idle) :
    ∃ nb, headerBuffer s.hdr = some nb ∧ (∀ cap ∈ s.params.pixmemBytes, bufLen nb ≤ cap) ∧
      (headerType s.hdr).toNat ∈ [2, 3] ∧
      creadValidate s = { s with nb := some nb, phase := .rPayload, pos := srcLength s.source } := by
  obtain ⟨-, he⟩ | ⟨nb, hnb, ⟨-, he⟩ | ⟨-, -, he⟩ | ⟨hf, ht, he⟩⟩ := creadValidate_cases s
  · exact absurd (by rw [he, finish_phase]) h
  · exact absurd (by rw [he, finish_phase]) h
  · exact absurd (by rw [he, finish_phase]) h
  · refine ⟨nb, hnb, fits_eq_true.mp hf, by rcases ht with ht | ht <;> rw [ht] <;> decide, ?_⟩
    rw [he] at h ⊢
    obtain ⟨-, hp⟩ | ⟨-, hp⟩ | ⟨_, -, -, hp⟩ := creadPayload_cases (s := { s with nb := some nb }) rfl
    · exact absurd (by rw [hp, finish_phase]) h
    · exact hp
    · exact absurd (by rw [hp, finish_phase]) h

/-- A stream starts with the header of any part of it that holds a header. -/
theorem streamHeader_of_extends {S S' : List Byte} (h : S <+: S') (hl : 18 ≤ S.length) :
    streamHeader S' = streamHeader S := by
  obtain ⟨R, rfl⟩ := h
  rw [streamHeader, streamHeader, List.take_append_of_le_length hl]

/-- Settles O44: the header is read anew, the payload with the header that was read before the wait. -/
theorem lateAnswerCompletesCread : Obligations.LateAnswerCompletesCread := by
  intro s t S S' _ hpin hs hpre ht hidle
  obtain rfl : creadOpen s = t := Host.Outcome.next.inj ht
  rcases Nat.lt_or_ge S.length 18 with hl | hl
  · rw [creadOpen_of_stalled_header hs hl]
    refine Eq.trans (step_of_rHeader (by exact hpin) rfl) ?_
    exact congrArg Host.Outcome.next (creadHeader_of_phase_pos
      (s := { s with source := .stream S', srcOpen := true, pos := 0 }) rfl .rHeader S.length)
  · rw [creadOpen_of_header (.inr hs) hl] at hidle ⊢
    obtain ⟨nb, hnb, hf, htype, he⟩ := creadValidate_of_not_idle hidle
    have hwhole : creadOpen { s with source := .stream S' } =
        creadPayload { validating s S with source := .stream S', nb := some nb } := by
      rw [creadOpen_of_header (.inl rfl) (hl.trans hpre.length_le), validating, streamHeader_of_extends hpre hl]
      exact creadValidate_of_accepted hnb hf htype
    rw [he]
    refine Eq.trans (step_of_inProgress (by exact hpin) nofun) (congrArg Host.Outcome.next (Eq.trans ?_ hwhole.symm))
    exact creadPayload_of_phase_pos (s := { validating s S with source := .stream S' }) rfl .rPayload _ nb

/-! ## The end of CWRITE -/

/-- A phase of CWRITE that ends the command has released the sink (R60). -/
theorem WriteEnds.released {s t : State} (h : WriteEnds s t) (hp : t.phase = .idle) :
    t.dstOpen = false ∧ t.out = none := by
  cases h with
  | success o p => exact ⟨rfl, rfl⟩
  | failure e o p => exact ⟨rfl, rfl⟩
  | waits ph o p hph => rcases hph with rfl | rfl | rfl <;> cases hp

/-- Settles O34: an illegal flag and a closed sink end the command at once, another sink ends it or keeps it waiting. -/
theorem cwriteLeavesTheBuffer : Obligations.CwriteLeavesTheBuffer := by
  intro s t vf _ ht
  obtain rfl := Host.Outcome.next.inj ht
  split
  · refine ⟨cwriteOpen_buf vf s, ?_⟩
    unfold cwriteOpen
    split
    · exact fun _ => ⟨rfl, rfl⟩
    · exact (cwriteHeader_ends _).released
  · exact ⟨rfl, fun _ => ⟨rfl, rfl⟩⟩

/-! ## A sink that answers late -/

/-- Ending a CWRITE hands over the bytes taken, and what stands in `POS` is lost. -/
theorem finish_writing_pos (s : State) (vf : Byte) (p q : Nat) (r : Resp) :
    finish r { writing s vf p with pos := q } = finish r (writing s vf p) := by
  simp [finish, writing]

/-- Ending a CWRITE that has written the whole file. -/
theorem finish_writing_whole (s : State) (vf : Byte) {p : Nat} (hp : 44 + bufLen s.buf ≤ p) (r : Resp) :
    finish r (writing s vf p) = finish r (writing s vf (44 + bufLen s.buf)) := by
  have hl := length_fileBytes s.params s.buf vf
  simp [finish, writing, List.take_of_length_le (hl.trans_le hp), List.take_of_length_le hl.le]

/-- How a CWRITE ends to a sink that takes up to `cap` bytes, or any number: with the error of the part of the file
that exceeds the capacity, the bytes up to it handed over (R59, R172). -/
def cwriteEnd (s : State) (vf : Byte) (cap : Option Nat) : State :=
  finish
    (if ∀ c ∈ cap, 44 + bufLen s.buf ≤ c then respOk
      else if ∀ c ∈ cap, 18 + bufLen s.buf ≤ c then respError .footerWriteFailure
      else if ∀ c ∈ cap, 18 ≤ c then respError .payloadWriteFailure
      else respError .headerWriteFailure)
    (writing s vf (cap.getD (44 + bufLen s.buf)))

/-- A file up to `p` bytes, inside its part `v`, and the bytes of the part from there make the file up to `k`. -/
theorem take_append_rest {F pre v post : List Byte} (hf : F = pre ++ v ++ post) {p k : Nat} (hp : pre.length ≤ p)
    (hk : p ≤ k) (hv : k ≤ pre.length + v.length) :
    F.take p ++ (v.drop (p - pre.length)).take (k - p) = F.take k := by
  obtain ⟨i, rfl⟩ := Nat.exists_eq_add_of_le hp
  obtain ⟨j, rfl⟩ := Nat.exists_eq_add_of_le hk
  rw [hf, List.append_assoc, Nat.add_assoc, List.take_length_add_append, List.take_length_add_append,
    List.take_append_of_le_length (by omega), List.take_append_of_le_length (by omega), List.append_assoc,
    Nat.add_sub_cancel_left, ← Nat.add_assoc, Nat.add_sub_cancel_left, List.take_add]

section Sink
variable {s : State} {vf : Byte} {cap : Option Nat} {p : Nat} (hs : s.sink = .takes cap) (hc : ∀ c ∈ cap, p ≤ c)
include hs hc

/-- A part of the file of which the bytes below `p` were taken before, to a sink that takes up to `cap` bytes in all:
the rest of the part, or the bytes up to the capacity and a failure (R59). -/
theorem dstWrite_resumed {pre v post : List Byte} (hf : fileBytes s.params s.buf vf = pre ++ v ++ post)
    (hp : pre.length ≤ p) (hv : p ≤ pre.length + v.length) :
    dstWrite pre.length v (writing s vf p) =
      if ∀ c ∈ cap, pre.length + v.length ≤ c then (.complete, writing s vf (pre.length + v.length))
      else (.failed, { writing s vf (cap.getD (44 + bufLen s.buf)) with pos := p }) := by
  have hend : p + (v.drop (p - pre.length)).length = pre.length + v.length := by
    rw [List.length_drop]
    omega
  have hwhole := take_append_rest hf hp hv le_rfl
  rw [List.take_of_length_le (l := v.drop _) (by omega)] at hwhole
  unfold dstWrite
  simp only [writing, hs, hend]
  cases cap with
  | none => simp [sinkTake, hwhole]
  | some c =>
    have hpc : p ≤ c := hc c rfl
    by_cases h : pre.length + v.length ≤ c
    · simp [sinkTake, hwhole, h]
    · have hpart := take_append_rest hf hp hpc (by omega)
      simp [sinkTake, hpart, h]

/-- `W_FOOTER`, its first bytes taken or none, ends as CWRITE to the sink does. -/
theorem cwriteFooter_resumed (h1 : 18 + bufLen s.buf ≤ p) (h2 : p ≤ 44 + bufLen s.buf) :
    cwriteFooter (writing s vf p) = cwriteEnd s vf cap := by
  have hw := dstWrite_resumed (pre := headerBytes (writtenHeader s.buf vf) ++ payloadBytes s.buf)
    (v := footerBytes s.params) (post := []) (vf := vf) hs hc (by rw [List.append_nil]; rfl) (by simpa using h1)
    (by simp; omega)
  simp only [List.length_append, length_headerBytes, length_payloadBytes, length_footerBytes,
    Nat.add_right_comm 18 _ 26, Nat.reduceAdd] at hw
  rw [cwriteFooter, show (writing s vf p).buf = s.buf from rfl, show (writing s vf p).params = s.params from rfl,
    Config.headerLen, hw, cwriteEnd]
  by_cases h : ∀ c ∈ cap, 44 + bufLen s.buf ≤ c
  · rw [if_pos h, if_pos h]
    refine (finish_writing_whole s vf ?_ respOk).symm
    cases cap with
    | none => exact le_rfl
    | some c => exact h c rfl
  · rw [if_neg h, if_neg h, if_pos (fun c hcap => h1.trans (hc c hcap))]
    exact finish_writing_pos s vf _ p _

/-- `W_PAYLOAD`, its first bytes taken or none, ends as CWRITE to the sink does. -/
theorem cwritePayload_resumed (h1 : 18 ≤ p) (h2 : p ≤ 18 + bufLen s.buf) :
    cwritePayload (writing s vf p) = cwriteEnd s vf cap := by
  have hw := dstWrite_resumed (pre := headerBytes (writtenHeader s.buf vf)) (v := payloadBytes s.buf) hs hc rfl
    (by simpa using h1) (by simpa using h2)
  simp only [length_headerBytes, length_payloadBytes] at hw
  rw [cwritePayload, show (writing s vf p).buf = s.buf from rfl, Config.headerLen, hw]
  by_cases h : ∀ c ∈ cap, 18 + bufLen s.buf ≤ c
  · rw [if_pos h]
    exact cwriteFooter_resumed hs h le_rfl (by omega)
  · have h44 : ¬∀ c ∈ cap, 44 + bufLen s.buf ≤ c := fun h' => h fun c hcap => le_trans (by omega) (h' c hcap)
    rw [if_neg h, cwriteEnd, if_neg h44, if_neg h, if_pos (fun c hcap => h1.trans (hc c hcap))]
    exact finish_writing_pos s vf _ p _

/-- `W_HEADER`, its first bytes taken or none, ends as CWRITE to the sink does. -/
theorem cwriteHeader_resumed (h2 : p ≤ 18) : cwriteHeader (writing s vf p) = cwriteEnd s vf cap := by
  have hw := dstWrite_resumed (pre := []) (v := headerBytes (writtenHeader s.buf vf)) hs hc
    (by rw [fileBytes, List.nil_append, List.append_assoc]) (Nat.zero_le p) (by simpa using h2)
  simp only [List.length_nil, length_headerBytes, Nat.zero_add] at hw
  rw [cwriteHeader, show (writing s vf p).hdr = writtenHeader s.buf vf from rfl, hw]
  by_cases h : ∀ c ∈ cap, 18 ≤ c
  · rw [if_pos h]
    exact cwritePayload_resumed hs h le_rfl (by omega)
  · have h18 : ¬∀ c ∈ cap, 18 + bufLen s.buf ≤ c := fun h' => h fun c hcap => le_trans (by omega) (h' c hcap)
    have h44 : ¬∀ c ∈ cap, 44 + bufLen s.buf ≤ c := fun h' => h fun c hcap => le_trans (by omega) (h' c hcap)
    rw [if_neg h, cwriteEnd, if_neg h44, if_neg h18, if_neg h]
    exact finish_writing_pos s vf _ p _

end Sink

/-- CWRITE with a legal flag to a sink that opens and answers ends by the sink's capacity (R172). -/
theorem exec_cwrite_of_takes {s : State} {vf : Byte} {cap : Option Nat} (hv : vf = 0 ∨ vf = 1)
    (hs : s.sink = .takes cap) : exec (.cwrite vf) s = .next (cwriteEnd s vf cap) := by
  rw [exec_cwrite_of_opens hv (by rw [hs]; nofun), cwriteHeader_resumed hs (fun c _ => Nat.zero_le c) (by omega)]

/-- Settles O45: in whichever phase it waited, the resumed CWRITE ends as the one to that sink does, since ending
overwrites `PHASE` and `POS`. -/
theorem lateAnswerCompletesCwrite : Obligations.LateAnswerCompletesCwrite := by
  intro s t vf n cap hr hpin hs hc ht hidle
  have hv : vf = 0 ∨ vf = 1 := by
    by_contra hv
    rw [exec, execCwrite, if_neg hv] at ht
    obtain rfl := Host.Outcome.next.inj ht
    exact hidle rfl
  obtain ⟨hwait, hend⟩ := stalledSinkLeavesCwriteWaiting s vf n hr hv hs
  have hn : n < 44 + bufLen s.buf := by
    by_contra hn
    obtain rfl := Host.Outcome.next.inj ((hend (not_lt.mp hn)).symm.trans ht)
    exact hidle hr.1
  obtain rfl := Host.Outcome.next.inj ((hwait hn).symm.trans ht)
  refine Eq.trans (step_of_inProgress (by exact hpin) hidle)
    (Eq.trans (congrArg Host.Outcome.next ?_) (exec_cwrite_of_takes hv rfl).symm)
  by_cases h1 : n < 18
  · simp only [if_pos h1]
    exact cwriteHeader_resumed (s := { s with sink := .takes cap, phase := .wHeader }) rfl hc h1.le
  · by_cases h2 : n < 18 + bufLen s.buf
    · simp only [if_neg h1, if_pos h2]
      exact cwritePayload_resumed (s := { s with sink := .takes cap, phase := .wPayload }) rfl hc (by omega) h2.le
    · simp only [if_neg h1, if_neg h2]
      exact cwriteFooter_resumed (s := { s with sink := .takes cap, phase := .wFooter }) rfl hc (by exact not_lt.mp h2)
        hn.le

end Sys2Proof.Machine
end

