-- ==== Sys2Proof/Proofs/Encoding.lean ====
section
/-! PROOFS. The decoder and the encoder undo each other, the bits of a descriptor that its command does not use have no
effect, and the fields of `RESP` lie at their places (30_encoding R80 to R103). -/

namespace Sys2Proof.Machine

/-! ## Decoder and encoder -/

/-- Settles O5: a word's bytes give the word back, and each field of an assembled word is the operand put in. -/
theorem decodeUndoesEncode : Obligations.DecodeUndoesEncode := by
  intro i
  cases i with
  | fileHdrRawTruecolor f | fileHdrRawGrayscale f =>
    rw [encode, decode_headerBytes, decodeHeader, headerType_headerWord, headerFields_headerWord]
    rfl
  | construct | get | set | fliph | flipv | rawrd | rawwr | qw | qh | qbpp | cwrite | cread =>
    rw [encode, decode_descriptorBytes, decodeDescriptor, descOp_descriptor]
    simp

/-- Settles O6: a header that decodes is the word of its row's data type and its other fields. -/
theorem headerBytesAreDeterminedByTheirRow : Obligations.HeaderBytesAreDeterminedByTheirRow := by
  intro h i hd
  rw [decode_headerBytes, decodeHeader] at hd
  split at hd
  case h_1 ht =>
    obtain rfl := Except.ok.inj hd
    rw [encode, headerWord_of_type ht]
  case h_2 ht =>
    obtain rfl := Except.ok.inj hd
    rw [encode, headerWord_of_type ht]
  case h_3 => cases hd

/-- An encoding, read in both directions. -/
theorem encode_and_decode_of_encode_eq {i : Instr} {bytes : List Byte} (h : encode i = bytes) :
    encode i = bytes ∧ decode bytes = .ok i :=
  ⟨h, h ▸ decodeUndoesEncode i⟩

/-- Settles O7: the encoder prints the bytes, and decoding undoes it. -/
theorem workedEncodingsDecode : Obligations.WorkedEncodingsDecode :=
  ⟨encode_and_decode_of_encode_eq (by decide), encode_and_decode_of_encode_eq (by decide),
    encode_and_decode_of_encode_eq (by decide), encode_and_decode_of_encode_eq (by decide),
    encode_and_decode_of_encode_eq (by decide), by decide, by decide, by decide⟩

/-! ## Unused bits of a descriptor (R83) -/

/-- Words that agree under a mask agree in every field that the mask covers. -/
theorem extractLsb'_eq_of_and_eq {n : Nat} {d e u : BitVec n} (h : d &&& u = e &&& u) {start len : Nat}
    (hu : u.extractLsb' start len = BitVec.allOnes len) : d.extractLsb' start len = e.extractLsb' start len := by
  have := congrArg (BitVec.extractLsb' start len) h
  rwa [BitVec.extractLsb'_and, BitVec.extractLsb'_and, hu, BitVec.and_allOnes, BitVec.and_allOnes] at this

section Fields
variable {d e u : Desc} (h : d &&& u = e &&& u)
include h

theorem descOp_congr (hu : descOp u = 0xFF) : descOp d = descOp e := extractLsb'_eq_of_and_eq h hu
theorem descM_congr (hu : descM u = 0xFF) : descM d = descM e := extractLsb'_eq_of_and_eq h hu
theorem descA_congr (hu : descA u = 0xFFFF) : descA d = descA e := extractLsb'_eq_of_and_eq h hu
theorem descB_congr (hu : descB u = 0xFFFF) : descB d = descB e := extractLsb'_eq_of_and_eq h hu
theorem descC0_congr (hu : descC0 u = 0xFF) : descC0 d = descC0 e := extractLsb'_eq_of_and_eq h hu
theorem descC1_congr (hu : descC1 u = 0xFF) : descC1 d = descC1 e := extractLsb'_eq_of_and_eq h hu
theorem descC2_congr (hu : descC2 u = 0xFF) : descC2 d = descC2 e := extractLsb'_eq_of_and_eq h hu
theorem descC3_congr (hu : descC3 u = 0xFF) : descC3 d = descC3 e := extractLsb'_eq_of_and_eq h hu
theorem descOff_congr (hu : descOff u = 0xFFFFFFFF) : descOff d = descOff e := extractLsb'_eq_of_and_eq h hu

end Fields

/-- Every command uses `D.OP` (R86). -/
theorem descOp_usedBits (op : Byte) : descOp (usedBits op) = 0xFF := by
  unfold usedBits
  split <;> exact descOp_descriptor ..

/-- Settles O8: the used bits cover the opcode and, opcode by opcode, the fields its command takes. -/
theorem unusedDescriptorFieldsHaveNoEffect : Obligations.UnusedDescriptorFieldsHaveNoEffect := by
  intro d e h
  have hop := descOp_congr h (descOp_usedBits _)
  unfold decodeDescriptor
  rw [← hop]
  split
  case h_1 hv =>
    simp only [usedBits, hv] at h
    rw [descA_congr h (descA_descriptor ..), descB_congr h (descB_descriptor ..), descM_congr h (descM_descriptor ..)]
  case h_2 hv =>
    simp only [usedBits, hv] at h
    rw [descA_congr h (descA_descriptor ..), descB_congr h (descB_descriptor ..)]
  case h_3 hv =>
    simp only [usedBits, hv] at h
    rw [descA_congr h (descA_descriptor ..), descB_congr h (descB_descriptor ..), descM_congr h (descM_descriptor ..),
      descC0_congr h (descC0_descriptor ..), descC1_congr h (descC1_descriptor ..),
      descC2_congr h (descC2_descriptor ..), descC3_congr h (descC3_descriptor ..)]
  case h_6 hv =>
    simp only [usedBits, hv] at h
    rw [descOff_congr h (descOff_descriptor ..)]
  case h_7 hv =>
    simp only [usedBits, hv] at h
    rw [descOff_congr h (descOff_descriptor ..), descC0_congr h (descC0_descriptor ..)]
  case h_11 hv =>
    simp only [usedBits, hv] at h
    rw [descM_congr h (descM_descriptor ..)]
  -- the commands without operands, and the opcodes that are none
  all_goals rfl

/-! ## The response (R84) -/

/-- The bytes of a word, lowest first, are its fields of eight bits (R80). -/
theorem leBytes_toNat {w : Nat} (n : Nat) (x : BitVec w) :
    leBytes n x.toNat = (List.range n).map fun i => x.extractLsb' (8 * i) 8 := by
  refine List.ext_getElem? fun i => ?_
  rcases Nat.lt_or_ge i n with hi | hi
  · rw [getElem?_leBytes _ hi, List.getElem?_map, List.getElem?_range hi, Option.map_some, BitVec.extractLsb',
      Nat.shiftRight_eq_div_pow]
  · rw [List.getElem?_eq_none (by simpa using hi), List.getElem?_eq_none (by simpa using hi)]

/-- Settles O49: each field lies above the ones that were put below it, and the bytes are the fields of eight bits. -/
theorem responseFieldsLieWhereTheTableSays : Obligations.ResponseFieldsLieWhereTheTableSays := by
  intro r
  have hbytes : respBytes r = (List.range 8).map fun i => (respWord r).extractLsb' (8 * i) 8 := leBytes_toNat 8 _
  rw [hbytes]
  unfold respWord
  simp (disch := omega) only [List.range_succ, List.range_zero, List.nil_append, List.cons_append, List.map_cons,
    List.map_nil, Nat.reduceMul, BitVec.extractLsb'_append_eq_of_le, BitVec.extractLsb'_append_eq_of_add_le,
    extractLsb'_self, Nat.reduceSub, and_self]

end Sys2Proof.Machine
end

