-- ==== Sys2Proof/Proofs/HeaderRows.lean ====
section
/-! PROOFS. The decoded instruction is what runs (30_encoding R86, R102, 70_step R264): the command of the oldest
request in `IDLE`, the file header's row in `R_HEADER`, and the row as CREAD from its header on; what a row loads
(43_codec_read R193 to R200), and that the header's other bytes do not count (R201). -/

namespace Sys2Proof.Machine

/-! ## A step runs what the bytes decode to -/

/-- Settles O10: the port decodes the request's descriptor, and accepting it takes it and its streams. -/
theorem stepRunsTheDecodedCommand : Obligations.StepRunsTheDecodedCommand := by
  intro s r rest i hpin hp hport hd
  rw [decode_descriptorBytes] at hd
  have hf : fetch s = .run i (accept r rest s) := by
    simp only [fetch, hpin, hp, fetchCommand, hport, hd, Bool.false_eq_true, if_false]
  rw [step, hf]
  rfl

section Row
variable {s : State} {S : List Byte} {i : Instr} (hl : 18 ≤ S.length)
include hl

/-- The first 18 bytes of a stream decode as its header. -/
theorem decode_take_header : decode (S.take 18) = decodeHeader (streamHeader S) := by
  rw [← headerBytes_streamHeader hl, decode_headerBytes]

/-- The row that a stream starts with is run as CREAD goes on with the stream's header (R102). -/
theorem exec_of_decode_take (hd : decode (S.take 18) = .ok i) (s : State) :
    exec i s = .next (creadHeaderArrived (streamHeader S) s) :=
  exec_of_decodeHeader ((decode_take_header hl).symm.trans hd) s

theorem creadHeader_of_header (hs : s.source = .stream S ∨ s.source = .stalling S) :
    creadHeader s = creadHeaderArrived (streamHeader S) s := by
  have hr : srcRead s.source 0 18 = .complete (S.take 18) := srcRead_of_le hs (by omega)
  rw [creadHeader, Config.headerLen, hr]
  rfl

end Row

/-- Settles O11: both sides are CREAD with the stream's header arrived. -/
theorem stepRunsTheDecodedHeader : Obligations.StepRunsTheDecodedHeader := by
  intro s S i hpin hp hs hl hd
  rw [step_of_rHeader hpin hp, creadHeader_of_header hl hs, exec_of_decode_take hl hd]

/-- Settles O47: opening the stream, CREAD has the stream's header arrived, as its row has. -/
theorem creadRunsTheHeadersRow : Obligations.CreadRunsTheHeadersRow := by
  intro s S i hs hl hd
  rw [exec_of_decode_take hl hd, exec, execCread, creadOpen_of_header hs hl]
  rfl

/-! ## What a header's row loads (R193 to R200) -/

/-- A CREAD whose header has arrived, before validation (R190). -/
def headerArrived (h : Bytes18) (s : State) : State := { s with hdr := h, pos := 18 }

/-- A header's row, whichever of the two, is a header word with an accepted data type, run from validation on. -/
theorem headerRow_cases {i : Instr} {f : FileHeader} (hi : i = .fileHdrRawTruecolor f ∨ i = .fileHdrRawGrayscale f) :
    ∃ h : Bytes18, encode i = headerBytes h ∧ headerFields h = f ∧ (headerType h).toNat ∈ [2, 3] ∧
      ∀ s, exec i s = .next (creadValidate (headerArrived h s)) := by
  rcases hi with rfl | rfl
  · exact ⟨headerWord 2 f, rfl, headerFields_headerWord 2 f, by simp, fun _ => rfl⟩
  · exact ⟨headerWord 3 f, rfl, headerFields_headerWord 3 f, by simp, fun _ => rfl⟩

/-- The end of a CREAD that waited for its header: the buffer it leaves, and free values in `POS` and `HDR`. -/
theorem finish_awaitsHeader {s : State} (hs : s.AwaitsHeader) (r : Resp) (b : Buffer) (o : Option Buffer) (p : Nat)
    (h : Bytes18) :
    finish r { s with buf := b, nb := o, pos := p, hdr := h } = { s with
      buf := b, resp := r, phase := .idle, srcOpen := false
      pos := Config.freePos s.draws, hdr := Config.freeHdr s.draws, draws := s.draws + 1 } := by
  obtain ⟨-, ho, hd, hn, hout⟩ := hs
  simp [finish, ho, hd, hn, hout]

/-- `R_PAYLOAD` of a stream that has ended before the whole payload refuses the file (R198). -/
theorem creadPayload_of_short {s : State} {S : List Byte} {nb : Buffer} (hn : s.nb = some nb)
    (hs : s.source = .stream S) (hl : S.length < 18 + bufLen nb) :
    creadPayload s = finish (respError .payloadTruncated) s := by
  simp only [creadPayload, hn, hs, srcRead, Config.headerLen, if_neg (not_le.mpr hl), raise_eq]

/-- Settles O46: the header's checks in their order, then the payload loaded, missed or waited for. -/
theorem headerRowsLoadTheFile : Obligations.HeaderRowsLoadTheFile := by
  intro s i f S hi hs hS
  obtain ⟨h, henc, rfl, htype, hexec⟩ := headerRow_cases hi
  simp only [hexec, henc, Host.Outcome.next.injEq]
  refine ⟨fun hill => ?_, fun b hw hh hbits => ?_⟩
  · rw [creadValidate_of_illegal (s := headerArrived h s) (headerBuffer_of_illegal hill)]
    exact finish_awaitsHeader hs _ _ _ _ _
  have hnb : headerBuffer (headerArrived h s).hdr = _ := headerBuffer_of_legal hw hh hbits
  rw [show (headerFields h).width.toNat * (headerFields h).height.toNat * bppBytes b =
    bufLen ⟨(headerFields h).width, (headerFields h).height, b, []⟩ from rfl]
  refine ⟨fun hc => ?_, fun hf hlt => ⟨fun hst => ?_, fun hst => ⟨h, rfl, ?_⟩⟩, fun hf hle => ?_⟩
  · rw [creadValidate_of_not_fits hnb hc]
    exact finish_awaitsHeader hs _ _ _ _ _
  · rw [creadValidate_of_accepted hnb hf htype]
    exact Eq.trans (creadPayload_of_short rfl hst hlt) (finish_awaitsHeader hs _ _ _ _ _)
  · exact (creadValidate_of_accepted hnb hf htype).trans (creadPayload_of_stalled rfl hst hlt)
  · rw [creadValidate_of_accepted hnb hf htype]
    refine Eq.trans (creadPayload_of_whole rfl hS hle) ?_
    refine Eq.trans (finish_awaitsHeader hs _ _ _ _ _) ?_
    rw [upright_eq]
    rfl

/-! ## The bytes of a file that CREAD does not use (R97, R201) -/

/-- Validation accepts a depth that is eight times the bytes per pixel (R94, R195). -/
theorem toNat_of_bppOfBits {bits : Byte} {b : Bpp} (h : bppOfBits bits = some b) : bits.toNat = 8 * bppBytes b := by
  unfold bppOfBits at h
  split at h <;> cases h <;> assumption

/-- The length of the payload, from the header's fields (R97, R198). -/
theorem bufLen_headerBuffer {h : Bytes18} {nb : Buffer} (e : headerBuffer h = some nb) :
    bufLen nb = (headerFields h).width.toNat * (headerFields h).height.toNat *
      ((headerFields h).bitsperpixel.toNat / 8) := by
  obtain ⟨-, -, hbits, hw, hh, -⟩ := headerBuffer_eq_some e
  rw [toNat_of_bppOfBits hbits, Nat.mul_div_cancel_left _ (by decide), ← hw, ← hh, bufLen]

/-- The payload of a file that has it whole, whatever follows it. -/
theorem srcRead_payload {H P T : List Byte} {n : Nat} (hH : H.length = 18) (hn : n ≤ P.length) :
    srcRead (.stream (H ++ P ++ T)) 18 n = .complete (P.take n) := by
  rw [srcRead_of_le (.inl rfl) (by simp; omega), List.append_assoc, ← hH, List.drop_left,
    List.take_append_of_le_length hn]

section Validate
variable {s : State} {h : Bytes18} {src : Source}

/-- The payload loaded does not depend on where it is read from, nor on what the header says but for its two bits. -/
theorem creadPayload_agrees {nb : Buffer} (hu : ∀ b, upright h b = upright s.hdr b)
    (hr : srcRead src Config.headerLen (bufLen nb) = srcRead s.source Config.headerLen (bufLen nb)) :
    let t := creadPayload { s with nb := some nb }
    let t' := creadPayload { s with nb := some nb, hdr := h, source := src }
    t.buf = t'.buf ∧ t.resp = t'.resp := by
  unfold creadPayload
  dsimp only
  rw [hr]
  split
  · exact ⟨rfl, rfl⟩
  · exact ⟨rfl, rfl⟩
  · rw [creadOrientV_eq rfl, creadOrientV_eq rfl]
    simp only [finish_buf, finish_resp, hu, and_self]

/-- From validation on, CREAD uses of the header the shape of the buffer, the data type and the orientation, and of the
stream the payload. -/
theorem creadValidate_agrees (hb : headerBuffer h = headerBuffer s.hdr) (ht : headerType h = headerType s.hdr)
    (hu : ∀ b, upright h b = upright s.hdr b)
    (hr : ∀ nb, headerBuffer s.hdr = some nb → srcRead src Config.headerLen (bufLen nb) =
      srcRead s.source Config.headerLen (bufLen nb)) :
    let t := creadValidate s
    let t' := creadValidate { s with hdr := h, source := src }
    t.buf = t'.buf ∧ t.resp = t'.resp := by
  simp only [creadValidate, hb]
  cases hnb : headerBuffer s.hdr with
  | none => exact ⟨rfl, rfl⟩
  | some nb =>
    simp only [creadAlloc, creadDispatch, ht]
    split
    · split
      · exact creadPayload_agrees hu (hr nb hnb)
      · exact ⟨rfl, rfl⟩
    · exact ⟨rfl, rfl⟩

end Validate

section Headers
variable {h h' : Bytes18}

theorem headerBuffer_congr (hw : (headerFields h').width = (headerFields h).width)
    (hh : (headerFields h').height = (headerFields h).height)
    (hb : (headerFields h').bitsperpixel = (headerFields h).bitsperpixel) : headerBuffer h' = headerBuffer h := by
  simp only [headerBuffer, hw, hh, hb]

/-- The two orientation bits are all of the descriptor byte that counts (R95, R199). -/
theorem upright_congr (hd : (headerFields h).imagedescriptor &&& 0x30 = (headerFields h').imagedescriptor &&& 0x30)
    (b : Buffer) : upright h' b = upright h b := by
  have h5 : topOrigin h' = topOrigin h := by simpa [topOrigin] using (congrArg (·.getLsbD 5) hd).symm
  have h4 : rightOrigin h' = rightOrigin h := by simpa [rightOrigin] using (congrArg (·.getLsbD 4) hd).symm
  rw [upright, upright, h5, h4]

end Headers

/-- CREAD of a file goes to validation with the file's header, whatever follows it. -/
theorem creadOpen_of_file {H P T : List Byte} (hH : H.length = 18) (s : State) :
    creadOpen { s with source := .stream (H ++ P ++ T) } =
      creadValidate (headerArrived (streamHeader H) { s with source := .stream (H ++ P ++ T), srcOpen := true }) := by
  have hpre : H <+: H ++ P ++ T := ⟨P ++ T, (List.append_assoc ..).symm⟩
  rw [creadOpen_of_header (.inl rfl) (hH.ge.trans hpre.length_le), validating, streamHeader_of_extends hpre hH.ge]
  rfl

/-- Settles O39: the two headers ask for the same buffer, type and orientation, and the payload is whole in both. -/
theorem creadIgnoresTheUnusedBytes : Obligations.CreadIgnoresTheUnusedBytes := by
  intro s H H' P T T' _ hH hH' hk hd hP
  simp only [List.forall_mem_cons, List.not_mem_nil, false_imp_iff, implies_true, and_true] at hk
  obtain ⟨h2, h12, h13, h14, h15, h16⟩ := hk
  have hl := hH.ge
  have hl' := hH'.ge
  have hbuffer : headerBuffer (streamHeader H') = headerBuffer (streamHeader H) := headerBuffer_congr
    (by rw [streamHeader_width hl, streamHeader_width hl', h12, h13])
    (by rw [streamHeader_height hl, streamHeader_height hl', h14, h15])
    (by rw [streamHeader_bits hl, streamHeader_bits hl', h16])
  have htype : headerType (streamHeader H') = headerType (streamHeader H) := by
    rw [streamHeader_type hl, streamHeader_type hl', h2]
  rw [← streamHeader_orientation hl, ← streamHeader_orientation hl'] at hd
  rw [← streamHeader_width hl, ← streamHeader_height hl, ← streamHeader_bits hl] at hP
  refine ⟨_, _, rfl, rfl, ?_⟩
  rw [creadOpen_of_file hH, creadOpen_of_file hH']
  refine creadValidate_agrees (s := headerArrived (streamHeader H) _) hbuffer htype (upright_congr hd) fun nb hnb => ?_
  have hn : bufLen nb ≤ P.length := (bufLen_headerBuffer hnb).trans_le hP
  exact (srcRead_payload hH' hn).trans (srcRead_payload hH hn).symm

end Sys2Proof.Machine
end

