-- ==== Sys2Proof/Proofs/BufferOps.lean ====
section
/-! PROOFS. The pixel buffer commands one by one (40_buffer_ops R121 to R128): which descriptor names each, and its
whole next state from a machine at rest, clause by clause in the order of its checks. -/

namespace Sys2Proof.Machine

/-! ## The descriptors of the commands (R86) -/

section Decode
variable {d : Desc}

theorem decodeDescriptor_construct (h : descOp d = 0x01) :
    decodeDescriptor d = .ok (.construct (descA d) (descB d) (descM d)) := by
  rw [decodeDescriptor, h]; rfl
theorem decodeDescriptor_get (h : descOp d = 0x02) : decodeDescriptor d = .ok (.get (descA d) (descB d)) := by
  rw [decodeDescriptor, h]; rfl
theorem decodeDescriptor_set (h : descOp d = 0x03) : decodeDescriptor d =
    .ok (.set (descA d) (descB d) (descM d) (descC0 d) (descC1 d) (descC2 d) (descC3 d)) := by
  rw [decodeDescriptor, h]; rfl
theorem decodeDescriptor_rawrd (h : descOp d = 0x06) : decodeDescriptor d = .ok (.rawrd (descOff d)) := by
  rw [decodeDescriptor, h]; rfl
theorem decodeDescriptor_rawwr (h : descOp d = 0x07) : decodeDescriptor d = .ok (.rawwr (descOff d) (descC0 d)) := by
  rw [decodeDescriptor, h]; rfl
theorem decodeDescriptor_qw (h : descOp d = 0x08) : decodeDescriptor d = .ok .qw := by rw [decodeDescriptor, h]; rfl
theorem decodeDescriptor_qh (h : descOp d = 0x09) : decodeDescriptor d = .ok .qh := by rw [decodeDescriptor, h]; rfl
theorem decodeDescriptor_qbpp (h : descOp d = 0x0A) : decodeDescriptor d = .ok .qbpp := by
  rw [decodeDescriptor, h]; rfl

end Decode

/-! ## Ending at rest, and counts as operands -/

/-- An instruction that ends from a machine at rest writes `RESP` beside the buffer it leaves. -/
theorem exec_of_finish {i : Instr} {s : State} {b : Buffer} {r : Resp} (hs : s.AtRest)
    (he : exec i s = .next (finish r { s with buf := b })) : exec i s = .next { s with buf := b, resp := r } :=
  he.trans (congrArg Host.Outcome.next (finish_of_atRest r (s := { s with buf := b }) hs))

/-- A legal count is read as the `BPP` with that many bytes (R87). -/
theorem bppOfByte_of_toNat {m : Byte} {b : Bpp} (h : m.toNat = bppBytes b) : bppOfByte m = some b := by
  rw [bppOfByte, h]
  cases b <;> rfl

/-- Every other count is illegal (R87). -/
theorem bppOfByte_of_not_mem {m : Byte} (h : m.toNat ∉ [1, 3, 4]) : bppOfByte m = none := by
  rcases hm : bppOfByte m with _ | b
  · rfl
  · refine absurd ?_ h
    rw [bppOfByte_eq_some.mp hm]
    cases b <;> decide

/-! ## CONSTRUCT (R121) -/

/-- A stored dimension is the operand's value, or 0 where that is negative (R121). -/
theorem toNat_clampDim (d : Half) : ((clampDim d).toNat : Int) = max d.toInt 0 := by
  unfold clampDim
  split_ifs with h
  · exact (max_eq_right h.le).symm
  · have := d.isLt
    rw [BitVec.toInt_eq_toNat_cond] at h ⊢
    split_ifs at h ⊢ <;> omega

theorem eq_clampDim {d d' : Half} (h : (d'.toNat : Int) = max d.toInt 0) : d' = clampDim d :=
  BitVec.eq_of_toNat_eq (Int.ofNat_inj.mp (h.trans (toNat_clampDim d).symm))

section Construct
variable {s : State} {w h : Half} {m : Byte}

theorem exec_construct_of_illegal (hm : bppOfByte m = none) :
    exec (.construct w h m) s = .next (finish (respError .illegalOperand) s) := by
  simp only [exec, execConstruct, hm, raise_eq]

variable {b : Bpp} (hm : bppOfByte m = some b)
include hm

theorem exec_construct_of_not_fits (hf : fits s.params (bufLen ⟨clampDim w, clampDim h, b, []⟩) = false) :
    exec (.construct w h m) s = .next (finish (respError .capacityExceeded) s) := by
  simp only [exec, execConstruct, hm, hf, Bool.false_eq_true, if_false, raise_eq]

theorem exec_construct_of_fits (hf : fits s.params (bufLen ⟨clampDim w, clampDim h, b, []⟩) = true) :
    exec (.construct w h m) s = .next (finish respOk { s with buf := ⟨clampDim w, clampDim h, b, []⟩ }) := by
  simp only [exec, execConstruct, hm, hf, if_true, complete_eq]

end Construct

/-- Settles O14: the count decides first, then the capacity; `LINEBUF` keeps its bytes. -/
theorem constructMakesAZeroFilledBuffer : Obligations.ConstructMakesAZeroFilledBuffer := by
  refine ⟨fun _ => decodeDescriptor_construct, fun s w h m hs => ⟨fun hm => ?_, fun b w' h' hm hw hh => ?_⟩⟩
  · exact exec_of_finish hs (exec_construct_of_illegal (bppOfByte_of_not_mem hm))
  · obtain rfl := eq_clampDim hw
    obtain rfl := eq_clampDim hh
    have hb := bppOfByte_of_toNat hm
    refine ⟨fun hcap => ?_, fun hcap => ⟨⟨s.lineBuf, ?_⟩, fun _ => rfl⟩⟩
    · exact exec_of_finish hs (exec_construct_of_not_fits hb (fits_eq_false.mpr hcap))
    · exact exec_of_finish hs (exec_construct_of_fits hb (fits_eq_true.mpr hcap))

/-! ## GET (R122) -/

/-- A byte of a read of `n` bytes is the memory's, and there is none from `n` on. -/
theorem Memory.getD_readBytes_eq_ite (m : Memory) (k n i : Nat) :
    (Memory.readBytes m k n).getD i 0 = if i < n then Memory.readByte m (k + i) else 0 := by
  split_ifs with h
  · exact Memory.getD_readBytes m k n i h
  · exact List.getD_eq_default _ _ (by rw [Memory.length_readBytes]; omega)

/-- GET's response to the bytes of a slot: its channels below `BPP`, the others 0 (R122). -/
theorem respColour_readBytes (b : Bpp) (m : Memory) (off : Nat) :
    respColour b (Memory.readBytes m off (bppBytes b)) =
      { n := BitVec.ofNat 8 (bppBytes b)
        c0 := Memory.readByte m off
        c1 := if 1 < bppBytes b then Memory.readByte m (off + 1) else 0
        c2 := if 2 < bppBytes b then Memory.readByte m (off + 2) else 0
        c3 := if 3 < bppBytes b then Memory.readByte m (off + 3) else 0 } := by
  simp only [respColour, Memory.getD_readBytes_eq_ite, if_pos (bppBytes_pos b), Nat.add_zero]

theorem exec_get_of_not_inRange {s : State} {x y : Half} (hr : ¬inRange s.buf x y) :
    exec (.get x y) s = .next (finish (respColour s.buf.bpp []) s) := by
  simp only [exec, execGet, if_neg hr, complete_eq]

/-- Settles O15: in range the slot's bytes, out of range the colour of no bytes. -/
theorem getReturnsThePixelOrTheZeroColour : Obligations.GetReturnsThePixelOrTheZeroColour := by
  refine ⟨fun _ => decodeDescriptor_get, fun s x y hs => ⟨fun hr => ?_, fun hr => ?_⟩⟩
  · exact exec_of_finish hs ((exec_get_of_inRange hr).trans (by rw [respColour_readBytes]; rfl))
  · exact exec_of_finish hs (exec_get_of_not_inRange hr)

/-! ## SET (R123) -/

section Set
variable {s : State} {x y : Half} {n c0 c1 c2 c3 : Byte}

theorem exec_set_of_illegal (hn : bppOfByte n = none) :
    exec (.set x y n c0 c1 c2 c3) s = .next (finish (respError .illegalOperand) s) := by
  simp only [exec, execSet, hn, raise_eq]

theorem exec_set_of_not_inRange {b : Bpp} (hn : bppOfByte n = some b) (hr : ¬inRange s.buf x y) :
    exec (.set x y n c0 c1 c2 c3) s = .next (finish respOk s) := by
  simp only [exec, execSet, hn, if_neg hr, complete_eq]

end Set

section SetBytes
variable (b n : Bpp) (c0 c1 c2 c3 : Byte)

theorem length_setBytes : (setBytes b n c0 c1 c2 c3).length = min (bppBytes b) (bppBytes n) :=
  List.length_take_of_le ((min_le_left _ _).trans (bppBytes_le b))

theorem getD_setBytes {i : Nat} (hi : i < min (bppBytes b) (bppBytes n)) :
    (setBytes b n c0 c1 c2 c3).getD i 0 = [c0, c1, c2, c3].getD i 0 := by
  rw [setBytes, List.getD_eq_getElem?_getD, List.getElem?_take_of_lt hi, ← List.getD_eq_getElem?_getD]

/-- Memory after the colour's bytes are stored: the channels from the slot's start, every other byte as before. -/
theorem readByte_writeBytes_setBytes {m : Memory} (hm : Memory.wf m) (off a : Nat) :
    Memory.readByte (Memory.writeBytes m off (setBytes b n c0 c1 c2 c3)) a =
      if off ≤ a ∧ a < off + min (bppBytes b) (bppBytes n) then [c0, c1, c2, c3].getD (a - off) 0
      else Memory.readByte m a := by
  rw [Memory.readByte_writeBytes hm, length_setBytes]
  split_ifs with h
  · exact getD_setBytes _ _ _ _ _ _ (by omega)
  · rfl

end SetBytes

/-- Settles O16: the count decides first, then the range; the slot takes the colour's bytes. -/
theorem setStoresTheColourOrNothing : Obligations.SetStoresTheColourOrNothing := by
  refine ⟨fun _ => decodeDescriptor_set, fun s x y n c0 c1 c2 c3 hs hm =>
    ⟨fun hn => ?_, fun hn hr => ?_, fun hn hr => ?_⟩⟩
  · exact exec_of_finish hs (exec_set_of_illegal (bppOfByte_of_not_mem hn))
  · obtain ⟨nb, hnb, -⟩ := exists_bpp_of_toNat_mem hn
    exact exec_of_finish hs (exec_set_of_not_inRange hnb hr)
  · obtain ⟨nb, hnb, hcount⟩ := exists_bpp_of_toNat_mem hn
    refine ⟨_, exec_of_finish hs (exec_set_of_inRange hnb hr), Memory.wf_writeBytes hm _ _, fun a => ?_⟩
    rw [readByte_writeBytes_setBytes _ _ _ _ _ _ hm, hcount]
    rfl

/-! ## RAWRD and RAWWR (R124, R125) -/

section Raw
variable {s : State} {o : Offset} (h : bufLen s.buf ≤ o.toNat)
include h

theorem exec_rawrd_of_le : exec (.rawrd o) s = .next (finish (respError .rawRange) s) := by
  rw [exec, execRawrd, if_neg h.not_gt, raise_eq]

theorem exec_rawwr_of_le (b : Byte) : exec (.rawwr o b) s = .next (finish (respError .rawRange) s) := by
  rw [exec, execRawwr, if_neg h.not_gt, raise_eq]

end Raw

/-- A byte below `LEN` is the byte of the channel and pixel that division of its offset gives (R52, R124). -/
theorem readByte_eq_pixelByte {b : Buffer} {k : Nat} (hk : k < bufLen b) :
    Memory.readByte b.pix k = pixelByte b (k / bppBytes b.bpp % b.width.toNat) (k / bppBytes b.bpp / b.width.toNat)
      (k % bppBytes b.bpp) := by
  obtain ⟨-, -, -, hoff⟩ := (pixelBytesAndOffsetsCorrespond b).2 k hk
  rw [pixelByte, hoff]

/-- Settles O17: below `LEN` the byte, which is a pixel's; from `LEN` on the error. -/
theorem rawReadReturnsTheByteOrRawRange : Obligations.RawReadReturnsTheByteOrRawRange :=
  ⟨fun _ => decodeDescriptor_rawrd, fun _ _ hs =>
    ⟨fun ho => ⟨exec_of_finish hs (exec_rawrd_of_lt ho), readByte_eq_pixelByte ho⟩,
      fun ho => exec_of_finish hs (exec_rawrd_of_le ho)⟩⟩

/-- Settles O18: below `LEN` the byte is stored and no other changes; from `LEN` on the error. -/
theorem rawWriteStoresTheByteOrRawRange : Obligations.RawWriteStoresTheByteOrRawRange :=
  ⟨fun _ => decodeDescriptor_rawwr, fun _ _ b hs hm =>
    ⟨fun ho => ⟨_, exec_of_finish hs (exec_rawwr_of_lt b ho), Memory.wf_writeByte hm _ _,
        fun a => Memory.readByte_writeByte hm _ a b⟩,
      fun ho => exec_of_finish hs (exec_rawwr_of_le ho b)⟩⟩

/-! ## The queries (R126 to R128) -/

/-- Settles O19: QW ends with WIDTH as its value. -/
theorem qwReturnsTheWidth : Obligations.QwReturnsTheWidth :=
  ⟨fun _ => decodeDescriptor_qw, fun _ hs => exec_of_finish hs rfl⟩

/-- Settles O20: QH ends with HEIGHT as its value. -/
theorem qhReturnsTheHeight : Obligations.QhReturnsTheHeight :=
  ⟨fun _ => decodeDescriptor_qh, fun _ hs => exec_of_finish hs rfl⟩

/-- Settles O21: QBPP ends with BPP as its value. -/
theorem qbppReturnsTheBytesPerPixel : Obligations.QbppReturnsTheBytesPerPixel :=
  ⟨fun _ => decodeDescriptor_qbpp, fun _ hs => exec_of_finish hs rfl⟩

end Sys2Proof.Machine
end

