-- ==== Sys2Proof/Proofs/FlipColumns.lean ====
section
/-! PROOFS. FLIPH is the nested swap loops of R150: what the inner loop has done after some exchanges in one row, what
the outer loop has done after some rows, and that the whole is the left-right mirror. A pixel is named by its number
`t`, its place in row-major order, so that both loops move pixel numbers. -/

namespace Sys2Proof.Machine

/-! ## The loops of R150 -/

/-- The first `n` exchanges in the row of `W` pixels of `p` bytes that starts with pixel `a`. -/
def columnLoop (W p a n : Nat) (m : Memory) : Memory :=
  loopUpTo (fun i => swapBytes ((a + i) * p) ((a + (W - 1 - i)) * p) p) n m

/-- R150's procedure on the first `n` rows of `W` pixels of `p` bytes. -/
def mirrorRowsLoop (W p n : Nat) (m : Memory) : Memory :=
  loopUpTo (fun j => columnLoop W p (j * W) (W / 2)) n m

theorem flipHInPlace_eq_mirrorRowsLoop (b : Buffer) :
    flipHInPlace b = mirrorRowsLoop b.width.toNat (bppBytes b.bpp) b.height.toNat b.pix := rfl

theorem columnLoop_succ (W p a n : Nat) (m : Memory) : columnLoop W p a (n + 1) m =
    swapBytes ((a + n) * p) ((a + (W - 1 - n)) * p) p (columnLoop W p a n m) := rfl

theorem mirrorRowsLoop_succ (W p n : Nat) (m : Memory) :
    mirrorRowsLoop W p (n + 1) m = columnLoop W p (n * W) (W / 2) (mirrorRowsLoop W p n m) := rfl

section Loops
variable {m : Memory} (h : Memory.wf m)
include h

theorem wf_columnLoop (W p a n : Nat) : Memory.wf (columnLoop W p a n m) :=
  wf_loopUpTo (fun _ _ hm => wf_swapBytes hm _ _ _) h n

theorem wf_mirrorRowsLoop (W p n : Nat) : Memory.wf (mirrorRowsLoop W p n m) :=
  wf_loopUpTo (fun _ _ hm => wf_columnLoop hm _ _ _ _) h n

variable {W p n x : Nat} (hx : x < p)
include hx

/-- After `n` of its exchanges the inner loop has mirrored the `n` first and the `n` last pixels of its row, and has
moved no other pixel, in the buffer or behind it. -/
theorem readByte_columnLoop (a : Nat) (hn : n ≤ W / 2) (t : Nat) :
    Memory.readByte (columnLoop W p a n m) (t * p + x) =
      Memory.readByte m
        ((if a ≤ t ∧ t < a + W ∧ (t < a + n ∨ a + W ≤ t + n) then a + (a + W - 1 - t) else t) * p + x) := by
  induction n generalizing t with
  | zero => rw [if_neg (by omega)]; rfl
  | succ n ih =>
    rw [columnLoop_succ, readByte_swapRows (wf_columnLoop h W p a n) (by omega) hx, ih (by omega)]
    congr 3
    split_ifs <;> omega

/-- The whole inner loop mirrors its row: an odd row's middle pixel is its own mirror. -/
theorem readByte_columnLoop_half (a t : Nat) :
    Memory.readByte (columnLoop W p a (W / 2) m) (t * p + x) =
      Memory.readByte m ((if a ≤ t ∧ t < a + W then a + (a + W - 1 - t) else t) * p + x) := by
  rw [readByte_columnLoop h hx a le_rfl]
  congr 3
  split_ifs <;> omega

/-- After `n` rows R150's procedure has mirrored the pixels of these rows and has moved no other pixel. -/
theorem readByte_mirrorRowsLoop (t : Nat) :
    Memory.readByte (mirrorRowsLoop W p n m) (t * p + x) =
      Memory.readByte m ((if t < n * W then t / W * W + (W - 1 - t % W) else t) * p + x) := by
  induction n generalizing t with
  | zero => rw [if_neg (by omega)]; rfl
  | succ n ih =>
    rw [mirrorRowsLoop_succ, readByte_columnLoop_half (wf_mirrorRowsLoop h W p n) hx, ih, Nat.succ_mul]
    congr 3
    by_cases hrow : n * W ≤ t ∧ t < n * W + W
    · have hdiv : t / W = n := Nat.div_eq_of_lt_le hrow.1 (by rw [Nat.succ_mul]; exact hrow.2)
      have hmod := Nat.div_add_mod' t W
      rw [hdiv] at hmod ⊢
      rw [if_pos hrow, if_neg (by omega), if_pos hrow.2]
      omega
    · rw [if_neg hrow]
      split_ifs <;> omega

end Loops

/-- The in-place procedure of R150 leaves what the functional form does (R153). -/
theorem flipHInPlace_eq {b : Buffer} (h : Memory.wf b.pix) : flipHInPlace b = (flipH b).pix := by
  rw [flipHInPlace_eq_mirrorRowsLoop]
  refine Memory.ext_of_wf (wf_mirrorRowsLoop h _ _ _) (Memory.wf_remap _ _) fun k => ?_
  have hp := bppBytes_pos b.bpp
  have hloop := readByte_mirrorRowsLoop h (W := b.width.toNat) (n := b.height.toNat) (Nat.mod_lt k hp)
    (k / bppBytes b.bpp)
  have hlt : k / bppBytes b.bpp < b.height.toNat * b.width.toNat ↔ k < bufLen b := by
    rw [Nat.div_lt_iff_lt_mul hp, bufLen, Nat.mul_comm b.height.toNat]
  simp only [Nat.div_add_mod', hlt] at hloop
  rw [hloop, readByte_flipH]
  rcases Nat.lt_or_ge k (bufLen b) with hk | hk
  · obtain ⟨i, j, c, hi, hj, hc, rfl⟩ := exists_pixel hk
    obtain ⟨hcolumn, hrow, hchannel⟩ := pixel_of_pixelOff (b := b) (y := j) hi hc
    rw [if_pos hk, hcolumn, hrow, hchannel, mirrorColumn_pixel hi hj hc, pixelOff]
  · rw [if_neg hk.not_gt, Nat.div_add_mod', mirrorColumn_of_le hk]

/-! ## FLIPH -/

/-- The opcode of FLIPH (R86). -/
theorem decodeDescriptor_fliph {d : Desc} (h : descOp d = 0x04) : decodeDescriptor d = .ok .fliph := by
  rw [decodeDescriptor, h]; rfl

/-- Each pixel of a left-right mirrored buffer is the one of the mirrored column (R150). -/
theorem pixelByte_flipH {b : Buffer} {i j c : Nat} (hi : i < b.width.toNat) (hj : j < b.height.toNat)
    (hc : c < bppBytes b.bpp) : pixelByte (flipH b) i j c = pixelByte b (b.width.toNat - 1 - i) j c := by
  rw [pixelByte, pixelByte, readByte_flipH, ← mirrorColumn_pixel hi hj hc]
  rfl

/-- Settles O27: the loops leave the left-right mirror, whose bytes are those of the mirrored columns. -/
theorem fliphMirrorsLeftToRight : Obligations.FliphMirrorsLeftToRight := by
  refine ⟨fun d h => decodeDescriptor_fliph h, fun s hs hm => ?_⟩
  dsimp only
  rw [flipHInPlace_eq hm]
  refine ⟨exec_of_finish hs rfl, fun i j c hi hj hc => pixelByte_flipH hi hj hc, fun k hk => ?_⟩
  exact (readByte_flipH s.buf k).trans (by rw [mirrorColumn_of_le hk])

end Sys2Proof.Machine
end

