-- ==== Sys2Proof/Proofs/FlipLaws.lean ====
section
/-! PROOFS. The laws of the flips (41_flip_ops R152): each is a move of bytes along an involution of the offsets, so the
laws are those of the two mirrors. -/

namespace Sys2Proof.Machine

/-! ## Moving bytes along involutions -/

section Remap
variable {f g : Nat → Nat} {m : Memory} (hf : ∀ k, f (f k) = k)
include hf

theorem Memory.remap_remap (h : Memory.wf m) : Memory.remap f (Memory.remap f m) = m :=
  Memory.ext_of_wf (Memory.wf_remap _ _) h fun k => by
    rw [Memory.readByte_remap hf, Memory.readByte_remap hf, hf]

theorem Memory.remap_comm (hg : ∀ k, g (g k) = k) (hfg : ∀ k, f (g k) = g (f k)) (m : Memory) :
    Memory.remap g (Memory.remap f m) = Memory.remap f (Memory.remap g m) :=
  Memory.ext_of_wf (Memory.wf_remap _ _) (Memory.wf_remap _ _) fun k => by
    rw [Memory.readByte_remap hg, Memory.readByte_remap hf, Memory.readByte_remap hf, Memory.readByte_remap hg, hfg]

end Remap

theorem Memory.remap_eq_self {f : Nat → Nat} (hf : ∀ k, f k = k) {m : Memory} (h : Memory.wf m) :
    Memory.remap f m = m :=
  Memory.ext_of_wf (Memory.wf_remap _ _) h fun k => by
    rw [Memory.readByte_remap (fun k => by rw [hf, hf]), hf]

/-! ## The mirrors -/

/-- The mirrors commute: one moves the column alone, the other the row alone. -/
theorem mirrorColumn_mirrorRow (b : Buffer) (k : Nat) :
    mirrorColumn b (mirrorRow b k) = mirrorRow b (mirrorColumn b k) := by
  rcases Nat.lt_or_ge k (bufLen b) with h | h
  · obtain ⟨i, j, c, hi, hj, hc, rfl⟩ := exists_pixel h
    rw [mirrorRow_pixel hi hj hc, mirrorColumn_pixel hi hj hc, mirrorColumn_pixel hi (by omega) hc,
      mirrorRow_pixel (by omega) hj hc]
  · rw [mirrorRow_of_le h, mirrorColumn_of_le h, mirrorRow_of_le h]

section Small
variable {b : Buffer} (hb : b.width.toNat = 1 ∧ b.height.toNat = 1 ∨ b.width.toNat = 0 ∨ b.height.toNat = 0)
include hb

/-- A buffer of at most one pixel has no byte but those of pixel (0, 0). -/
theorem exists_channel_of_lt_bufLen {k : Nat} (hk : k < bufLen b) :
    b.width.toNat = 1 ∧ b.height.toNat = 1 ∧ ∃ c < bppBytes b.bpp, k = pixelOff b 0 0 + c := by
  obtain ⟨i, j, c, hi, hj, hc, rfl⟩ := exists_pixel hk
  obtain ⟨hw, hh⟩ := hb.resolve_right (by omega)
  obtain rfl : i = 0 := by omega
  obtain rfl : j = 0 := by omega
  exact ⟨hw, hh, c, hc, rfl⟩

theorem mirrorColumn_eq_self (k : Nat) : mirrorColumn b k = k := by
  rcases Nat.lt_or_ge k (bufLen b) with hk | hk
  · obtain ⟨hw, hh, c, hc, rfl⟩ := exists_channel_of_lt_bufLen hb hk
    rw [mirrorColumn_pixel (by omega) (by omega) hc, hw]
  · exact mirrorColumn_of_le hk

theorem mirrorRow_eq_self (k : Nat) : mirrorRow b k = k := by
  rcases Nat.lt_or_ge k (bufLen b) with hk | hk
  · obtain ⟨hw, hh, c, hc, rfl⟩ := exists_channel_of_lt_bufLen hb hk
    rw [mirrorRow_pixel (by omega) (by omega) hc, hh]
  · exact mirrorRow_of_le hk

end Small

/-! ## The flips of a buffer -/

theorem flipH_flipH {b : Buffer} (h : Memory.wf b.pix) : flipH (flipH b) = b :=
  congrArg (fun m => { b with pix := m }) (Memory.remap_remap (mirrorColumn_mirrorColumn b) h)

theorem flipV_flipV {b : Buffer} (h : Memory.wf b.pix) : flipV (flipV b) = b :=
  congrArg (fun m => { b with pix := m }) (Memory.remap_remap (mirrorRow_mirrorRow b) h)

theorem flipV_flipH (b : Buffer) : flipV (flipH b) = flipH (flipV b) :=
  congrArg (fun m => { b with pix := m })
    (Memory.remap_comm (mirrorColumn_mirrorColumn b) (mirrorRow_mirrorRow b) (mirrorColumn_mirrorRow b) b.pix)

/-! ## The commands -/

section Commands
variable {s t : State}

theorem buf_of_exec_fliph (h : exec .fliph s = .next t) : t.buf = flipH s.buf := by
  obtain rfl := Host.Outcome.next.inj h; rfl

theorem buf_of_exec_flipv (h : exec .flipv s = .next t) : t.buf = flipV s.buf := by
  obtain rfl := Host.Outcome.next.inj h; rfl

end Commands

/-- Settles O29: the mirrors are involutions of the offsets. -/
theorem flipsAreInvolutions : Obligations.FlipsAreInvolutions := by
  refine fun s t u hm => ⟨fun h₁ h₂ => ?_, fun h₁ h₂ => ?_⟩
  · rw [buf_of_exec_fliph h₂, buf_of_exec_fliph h₁, flipH_flipH hm]
  · rw [buf_of_exec_flipv h₂, buf_of_exec_flipv h₁, flipV_flipV hm]

/-- Settles O30: the mirrors commute as moves of the offsets. -/
theorem flipsCommute : Obligations.FlipsCommute := by
  intro s t u t' u' hh hhv hv hvh
  rw [buf_of_exec_flipv hhv, buf_of_exec_fliph hh, buf_of_exec_fliph hvh, buf_of_exec_flipv hv, flipV_flipH]

/-- Settles O31: a buffer of at most one pixel has no offset that a mirror moves. -/
theorem flipsOfOnePixelOrNoneAreTheIdentity : Obligations.FlipsOfOnePixelOrNoneAreTheIdentity := by
  rintro s t ⟨hm, -⟩ hsize hexec
  have hb : s.buf.width.toNat = 1 ∧ s.buf.height.toNat = 1 ∨ s.buf.width.toNat = 0 ∨ s.buf.height.toNat = 0 := by
    simpa [← BitVec.toNat_inj] using hsize
  rcases hexec with h | h
  · rw [buf_of_exec_fliph h, flipH, Memory.remap_eq_self (mirrorColumn_eq_self hb) hm]
  · rw [buf_of_exec_flipv h, flipV, Memory.remap_eq_self (mirrorRow_eq_self hb) hm]

end Sys2Proof.Machine
end

