-- ==== Sys2Proof/Proofs/Serialiser.lean ====
section
/-! PROOFS. What CWRITE writes (42_codec_write R171, R172, R176): the bytes of the header it builds, and its whole next
state from a machine at rest by what the sink takes. -/

namespace Sys2Proof.Machine

/-! ## The header (R171) -/

/-- The low byte of a 16-bit quantity (R96). -/
theorem extractLsb'_low_byte (d : Half) : d.extractLsb' 0 8 = BitVec.ofNat 8 (d.toNat % 256) := by
  apply BitVec.eq_of_toNat_eq
  simp

/-- The high byte of a 16-bit quantity (R96). -/
theorem extractLsb'_high_byte (d : Half) : d.extractLsb' 8 8 = BitVec.ofNat 8 (d.toNat / 256) := by
  apply BitVec.eq_of_toNat_eq
  simp [Nat.shiftRight_eq_div_pow]

/-- The bytes of a header by offset, two-byte fields low byte first (R92, R96). -/
theorem headerBytes_headerWord (code : Byte) (f : FileHeader) : headerBytes (headerWord code f) =
    [f.idlength, f.colormaptype, code,
      BitVec.ofNat 8 (f.colormaporigin.toNat % 256), BitVec.ofNat 8 (f.colormaporigin.toNat / 256),
      BitVec.ofNat 8 (f.colormaplength.toNat % 256), BitVec.ofNat 8 (f.colormaplength.toNat / 256), f.colormapdepth,
      BitVec.ofNat 8 (f.xOrigin.toNat % 256), BitVec.ofNat 8 (f.xOrigin.toNat / 256),
      BitVec.ofNat 8 (f.yOrigin.toNat % 256), BitVec.ofNat 8 (f.yOrigin.toNat / 256),
      BitVec.ofNat 8 (f.width.toNat % 256), BitVec.ofNat 8 (f.width.toNat / 256),
      BitVec.ofNat 8 (f.height.toNat % 256), BitVec.ofNat 8 (f.height.toNat / 256),
      f.bitsperpixel, f.imagedescriptor] := by
  rw [headerBytes, leBytes_toNat]
  unfold headerWord
  simp (disch := omega) only [List.range_succ, List.range_zero, List.nil_append, List.cons_append, List.map_cons,
    List.map_nil, Nat.reduceMul, BitVec.extractLsb'_append_eq_of_le, BitVec.extractLsb'_append_eq_of_add_le,
    extractLsb'_self, Nat.reduceSub, extractLsb'_low_byte, extractLsb'_high_byte]

/-- The data type CWRITE emits, by the number of bytes per pixel (R93). -/
theorem writtenType_eq (b : Bpp) : writtenType b = if bppBytes b = 1 then 3 else 2 := by
  cases b <;> rfl

/-- Settles O32: the bytes of a header by offset, those of the fields CWRITE puts in. -/
theorem writtenHeaderBytes : Obligations.WrittenHeaderBytes := by
  intro b vf
  rw [writtenHeader, headerBytes_headerWord, writtenType_eq]
  simp

/-! ## The outcome by the sink (R172) -/

/-- The opcode of CWRITE (R86). -/
theorem decodeDescriptor_cwrite {d : Desc} (h : descOp d = 0x10) : decodeDescriptor d = .ok (.cwrite (descM d)) := by
  rw [decodeDescriptor, h]; rfl

/-- The two zero references of the footer are eight zero bytes (R99). -/
theorem footerBytes_eq (p : Params) : footerBytes p = List.replicate 8 0 ++ leBytes 18 p.footerSig.toNat := rfl

/-- CWRITE with an illegal flag, before it looks at the sink (R170). -/
theorem exec_cwrite_of_illegal {s : State} {vf : Byte} (hv : ¬(vf = 0 ∨ vf = 1)) :
    exec (.cwrite vf) s = .next (finish (respError .illegalOperand) s) := by
  rw [exec, execCwrite, if_neg hv, raise_eq]

/-- CWRITE with a legal flag to a sink that does not open (R170). -/
theorem exec_cwrite_of_closed {s : State} {vf : Byte} (hv : vf = 0 ∨ vf = 1) (hs : s.sink = .closed) :
    exec (.cwrite vf) s = .next (finish (respError .streamOpenFailure) s) := by
  rw [exec, execCwrite, if_pos hv, cwriteOpen, hs]
  rfl

/-- From a machine at rest CWRITE to a bounded sink hands over the file up to the capacity, and its code tells the part
that the capacity falls in (R172). -/
theorem cwriteEnd_some {s : State} (hs : s.AtRest) (vf : Byte) (cap : Nat) :
    cwriteEnd s vf (some cap) = { s with
      resp := { err := if cap < 18 then 0x03 else if cap < 18 + bufLen s.buf then 0x07
        else if cap < 44 + bufLen s.buf then 0x08 else 0x00 }
      outs := s.outs ++ [(fileBytes s.params s.buf vf).take cap]
      pos := Config.freePos s.draws, hdr := Config.freeHdr s.draws, draws := s.draws + 1 } := by
  simp only [cwriteEnd, finish_writing hs, Option.getD_some, Option.mem_def, Option.some.injEq, forall_eq']
  by_cases h18 : cap < 18
  · rw [if_pos h18, if_neg (by omega), if_neg (by omega), if_neg (by omega)]
    rfl
  · by_cases hpix : cap < 18 + bufLen s.buf
    · rw [if_neg h18, if_pos hpix, if_neg (by omega), if_neg (by omega), if_pos (by omega)]
      rfl
    · by_cases hall : cap < 44 + bufLen s.buf
      · rw [if_neg h18, if_neg hpix, if_pos hall, if_neg (by omega), if_pos (by omega)]
        rfl
      · rw [if_neg h18, if_neg hpix, if_neg hall, if_pos (by omega)]
        rfl

/-- From a machine at rest CWRITE to an unbounded sink succeeds and hands over the whole file (R172). -/
theorem cwriteEnd_none {s : State} (hs : s.AtRest) (vf : Byte) :
    cwriteEnd s vf none = { s with
      resp := {}
      outs := s.outs ++ [fileBytes s.params s.buf vf]
      pos := Config.freePos s.draws, hdr := Config.freeHdr s.draws, draws := s.draws + 1 } := by
  rw [cwriteEnd, finish_writing hs, if_pos nofun, Option.getD_none,
    List.take_of_length_le (length_fileBytes _ _ _).le]
  rfl

/-- Settles O33: the flag is checked first, then the sink opens or not, then its capacity decides. -/
theorem cwriteOutcomeByTheSink : Obligations.CwriteOutcomeByTheSink := by
  refine ⟨fun d h => decodeDescriptor_cwrite h, fun s vf hs => ?_⟩
  refine ⟨length_fileBytes s.params s.buf vf, fun h0 h1 => ?_, fun hv => ⟨fun hc => ?_, ?_⟩⟩
  · rw [exec_cwrite_of_illegal (not_or.mpr ⟨h0, h1⟩), finish_of_atRest _ hs]
    rfl
  · rw [exec_cwrite_of_closed hv hc, finish_of_atRest _ hs]
    rfl
  · refine ⟨Config.freePos s.draws, Config.freeHdr s.draws, s.draws + 1, fun cap hc => ?_, fun hc => ?_⟩
    · rw [exec_cwrite_of_takes hv hc, cwriteEnd_some hs]
      rfl
    · rw [exec_cwrite_of_takes hv hc, cwriteEnd_none hs]
      rfl

/-! ## The laws on success (R176) -/

section File
variable (p : Params) (b : Buffer) (vf : Byte)

/-- The file's first 18 bytes are the header. -/
theorem getD_fileBytes_header (d : Byte) {k : Nat} (hk : k < 18) :
    (fileBytes p b vf).getD k d = (headerBytes (writtenHeader b vf)).getD k d := by
  rw [fileBytes, List.append_assoc, List.getD_append _ _ _ _ (by simpa using hk)]

/-- The bytes after the header are those of pixel memory (R98). -/
theorem getD_fileBytes_payload {k : Nat} (hk : k < bufLen b) :
    (fileBytes p b vf).getD (18 + k) 0 = Memory.readByte b.pix k := by
  rw [fileBytes, List.append_assoc, List.getD_append_right _ _ _ _ (by simp), length_headerBytes,
    Nat.add_sub_cancel_left, List.getD_append _ _ _ _ (by simpa using hk), payloadBytes,
    Memory.getD_readBytes _ _ _ _ hk, Nat.zero_add]

/-- What follows the header and the pixel bytes is the footer. -/
theorem drop_fileBytes (k : Nat) : (fileBytes p b vf).drop (18 + bufLen b + k) = (footerBytes p).drop k := by
  have hl : (headerBytes (writtenHeader b vf) ++ payloadBytes b).length = 18 + bufLen b := by simp
  rw [fileBytes, ← hl, List.drop_length_add_append]

/-- The footer's bytes. -/
theorem getD_fileBytes_footer (d : Byte) (k : Nat) :
    (fileBytes p b vf).getD (18 + bufLen b + k) d = (footerBytes p).getD k d := by
  have h := congrArg (·[k]?) (drop_fileBytes p b vf 0)
  simp only [List.getElem?_drop, Nat.add_zero, Nat.zero_add] at h
  rw [List.getD_eq_getElem?_getD, List.getD_eq_getElem?_getD, h]

end File

/-- Settles O35: the unbounded sink takes the whole file; each law is about one of its three parts. -/
theorem cwriteSuccessLaws : Obligations.CwriteSuccessLaws := by
  intro s vf hs hw hh hv hc
  have header (k : Nat) (hk : k < 18) (d : Byte) :=
    (getD_fileBytes_header s.params s.buf vf d hk).trans (congrArg (List.getD · k d) (writtenHeaderBytes s.buf vf))
  have htype : (fileBytes s.params s.buf vf).getD 2 0 = if bppBytes s.buf.bpp = 1 then 3 else 2 :=
    header 2 (by omega) 0
  have hbits : (fileBytes s.params s.buf vf).getD 16 0 = BitVec.ofNat 8 (8 * bppBytes s.buf.bpp) :=
    header 16 (by omega) 0
  have hdescriptor : (fileBytes s.params s.buf vf).getD 17 1 = if vf = 1 then 0x00 else 0x20 :=
    header 17 (by omega) 1
  refine ⟨_, fileBytes s.params s.buf vf, (exec_cwrite_of_takes hv hc).trans (by rw [cwriteEnd_none hs]), rfl, rfl,
    length_fileBytes _ _ _, ?_, ?_, ⟨s.buf.width.toNat, hw, header 12 (by omega) 0, header 13 (by omega) 0⟩,
    ⟨s.buf.height.toNat, hh, header 14 (by omega) 0, header 15 (by omega) 0⟩, ?_, ?_, ?_,
    fun k hk => getD_fileBytes_payload _ _ _ hk, fun k hk => ?_, ?_⟩
  · intro k hk
    fin_cases hk <;> exact header _ (by decide) 1
  · rw [htype]
    cases s.buf.bpp <;> decide
  · rw [hbits]
    cases s.buf.bpp <;> decide
  · rw [hbits, htype]
    cases s.buf.bpp <;> decide
  · rw [hdescriptor]
    rcases hv with rfl | rfl <;> decide
  · rw [getD_fileBytes_footer, footerBytes_eq, List.getD_append _ _ _ _ (by simpa using hk)]
    exact List.getD_replicate _ hk
  · rw [show 26 + bufLen s.buf = 18 + bufLen s.buf + 8 by omega, drop_fileBytes]
    rfl

end Sys2Proof.Machine
end

