-- ==== Sys2Proof/Proofs/Loader.lean ====
section
/-! PROOFS. CREAD of a complete stream (43_codec_read R190 to R203): its outcome as a function of the capacity and the
stream's bytes alone, the clauses of the pseudocode as the values of that function, and the four orientations. -/

namespace Sys2Proof.Machine

/-! ## The outcome as a function of the stream (R191 to R199) -/

/-- The buffer of a shape with the bytes a stream holds after its header, not yet upright (R98, R198). -/
def stored (S : List Byte) (nb : Buffer) : Buffer :=
  { nb with pix := Memory.ofBytes 0 ((S.drop 18).take (bufLen nb)) }

@[simp] theorem stored_width (S : List Byte) (nb : Buffer) : (stored S nb).width = nb.width := rfl
@[simp] theorem stored_height (S : List Byte) (nb : Buffer) : (stored S nb).height = nb.height := rfl
@[simp] theorem stored_bpp (S : List Byte) (nb : Buffer) : (stored S nb).bpp = nb.bpp := rfl

/-- What CREAD makes of the bytes of a stream: the first check that fails, or the buffer they hold (R190). -/
def loadFile (p : Params) (S : List Byte) : Except ErrCode Buffer :=
  if S.length < 18 then .error .headerReadFailure
  else match headerBuffer (streamHeader S) with
    | none => .error .invalidHeaderValues
    | some nb =>
      if fits p (bufLen nb) = false then .error .capacityExceeded
      else if (headerType (streamHeader S)).toNat ∉ [2, 3] then .error .unsupportedDataType
      else if S.length < 18 + bufLen nb then .error .payloadTruncated
      else .ok (upright (streamHeader S) (stored S nb))

section LoadFile
variable {p : Params} {S : List Byte} {nb : Buffer}

theorem loadFile_of_short_header (hl : S.length < 18) : loadFile p S = .error .headerReadFailure := if_pos hl

variable (hl : 18 ≤ S.length)
include hl

theorem loadFile_of_illegal (hb : headerBuffer (streamHeader S) = none) :
    loadFile p S = .error .invalidHeaderValues := by
  rw [loadFile, if_neg hl.not_gt, hb]

variable (hb : headerBuffer (streamHeader S) = some nb)
include hb

theorem loadFile_of_not_fits (hc : ∃ cap ∈ p.pixmemBytes, cap < bufLen nb) :
    loadFile p S = .error .capacityExceeded := by
  simp only [loadFile, if_neg hl.not_gt, hb, if_pos (fits_eq_false.mpr hc)]

variable (hf : ∀ cap ∈ p.pixmemBytes, bufLen nb ≤ cap)
include hf

theorem loadFile_of_unsupported (ht : (headerType (streamHeader S)).toNat ∉ [2, 3]) :
    loadFile p S = .error .unsupportedDataType := by
  simp only [loadFile, if_neg hl.not_gt, hb, fits_eq_true.mpr hf, Bool.true_eq_false, if_false, if_pos ht]

variable (ht : (headerType (streamHeader S)).toNat ∈ [2, 3])
include ht

theorem loadFile_of_truncated (hn : S.length < 18 + bufLen nb) : loadFile p S = .error .payloadTruncated := by
  simp only [loadFile, if_neg hl.not_gt, hb, fits_eq_true.mpr hf, Bool.true_eq_false, if_false,
    if_neg (not_not_intro ht), if_pos hn]

theorem loadFile_of_whole (hn : 18 + bufLen nb ≤ S.length) :
    loadFile p S = .ok (upright (streamHeader S) (stored S nb)) := by
  simp only [loadFile, if_neg hl.not_gt, hb, fits_eq_true.mpr hf, Bool.true_eq_false, if_false,
    if_neg (not_not_intro ht), if_neg hn.not_gt]

end LoadFile

/-- A buffer is loaded only with a whole header, and is what the stream stores, upright (R199). -/
theorem loadFile_eq_ok {p : Params} {S : List Byte} {b : Buffer} (h : loadFile p S = .ok b) :
    18 ≤ S.length ∧ ∃ nb, b = upright (streamHeader S) (stored S nb) := by
  unfold loadFile at h
  split at h
  · cases h
  next hl =>
    split at h
    · cases h
    next nb _ =>
      split_ifs at h
      exact ⟨not_lt.mp hl, nb, (Except.ok.inj h).symm⟩

/-! ## CREAD computes that function -/

/-- How CREAD ends from a machine at rest: with the error and the buffer as before, or with the loaded buffer; free
values in `POS` and `HDR` (R32, R33). -/
def creadEnd (s : State) (r : Except ErrCode Buffer) : State :=
  { s with
    buf := match r with | .error _ => s.buf | .ok b => b
    resp := match r with | .error e => respError e | .ok _ => respOk
    pos := Config.freePos s.draws, hdr := Config.freeHdr s.draws, draws := s.draws + 1 }

theorem errCode_ne_zero (e : ErrCode) : errCode e ≠ 0 := by cases e <;> decide

/-- CREAD whose response has no error has loaded a buffer (R230). -/
theorem eq_ok_of_creadEnd_err {s : State} {r : Except ErrCode Buffer} (h : (creadEnd s r).resp.err = 0) :
    r = .ok (creadEnd s r).buf := by
  cases r with
  | error e => exact absurd h (errCode_ne_zero e)
  | ok b => rfl

/-- CREAD of a complete stream without a whole header is refused with the stream held (R191, R192). -/
theorem creadOpen_of_short_header {s : State} {S : List Byte} (hs : s.source = .stream S) (hl : S.length < 18) :
    creadOpen s = finish (respError .headerReadFailure) { s with srcOpen := true, pos := 0 } := by
  simp only [creadOpen, creadHeader, hs, srcRead, Config.headerLen, Nat.zero_add, if_neg hl.not_ge, raise_eq]

/-- CREAD of a complete stream from a machine at rest is `loadFile`, one phase for each of its checks (R202). -/
theorem exec_cread_of_stream {s : State} {S : List Byte} (hr : s.AtRest) (hs : s.source = .stream S) :
    exec .cread s = .next (creadEnd s (loadFile s.params S)) := by
  rw [exec, execCread]
  congr 1
  rcases Nat.lt_or_ge S.length 18 with hl | hl
  · rw [creadOpen_of_short_header hs hl, loadFile_of_short_header hl]
    exact finish_reading hr _ _ _ _ _
  rw [creadOpen_of_header (.inl hs) hl]
  rcases hb : headerBuffer (streamHeader S) with _ | nb
  · rw [creadValidate_of_illegal (s := validating s S) hb, loadFile_of_illegal hl hb]
    exact finish_reading hr _ _ _ _ _
  rcases hfit : fits s.params (bufLen nb) with _ | _
  · have hc := fits_eq_false.mp hfit
    rw [creadValidate_of_not_fits (s := validating s S) hb hc, loadFile_of_not_fits hl hb hc]
    exact finish_reading hr _ _ _ _ _
  have hf := fits_eq_true.mp hfit
  by_cases ht : (headerType (streamHeader S)).toNat ∈ [2, 3]
  · rw [creadValidate_of_accepted (s := validating s S) hb hf ht]
    rcases Nat.lt_or_ge S.length (18 + bufLen nb) with hn | hn
    · rw [loadFile_of_truncated hl hb hf ht hn]
      exact Eq.trans (creadPayload_of_short rfl hs hn) (finish_reading hr _ _ _ _ _)
    · rw [loadFile_of_whole hl hb hf ht hn]
      exact Eq.trans (creadPayload_of_whole rfl (.inl hs) hn) (finish_reading hr _ _ _ _ _)
  · rw [creadValidate_of_unsupported (s := validating s S) hb hf ht, loadFile_of_unsupported hl hb hf ht]
    exact finish_reading hr _ _ _ _ _

/-- CREAD without a source, before it holds a stream (R191). -/
theorem exec_cread_of_absent {s : State} (hs : s.source = .absent) :
    exec .cread s = .next (finish (respError .streamOpenFailure) s) := by
  rw [exec, execCread, creadOpen, hs]
  rfl

/-! ## The pseudocode (R190) -/

/-- The opcode of CREAD (R86). -/
theorem decodeDescriptor_cread {d : Desc} (h : descOp d = 0x11) : decodeDescriptor d = .ok .cread := by
  rw [decodeDescriptor, h]; rfl

/-- Settles O37: each clause is a value of `loadFile`, the header's fields read from the stream's bytes. -/
theorem creadFollowsItsPseudocode : Obligations.CreadFollowsItsPseudocode := by
  refine ⟨fun d h => decodeDescriptor_cread h, fun s hr => ⟨fun hs => ?_, fun S hs => ?_⟩⟩
  · rw [exec_cread_of_absent hs, finish_of_atRest _ hr]
    rfl
  refine ⟨Config.freePos s.draws, Config.freeHdr s.draws, s.draws + 1, s.lineBuf, ?_⟩
  intro ends w h
  rw [exec_cread_of_stream hr hs]
  refine ⟨fun hl => ?_, fun hl => ?_⟩
  · rw [loadFile_of_short_header hl]
    rfl
  have hw : (headerFields (streamHeader S)).width = w := streamHeader_width hl
  have hh : (headerFields (streamHeader S)).height = h := streamHeader_height hl
  have hbits := streamHeader_bits hl
  refine ⟨fun hi => ?_, fun b hwpos hhpos hb => ?_⟩
  · rw [← hw, ← hh, ← hbits] at hi
    rw [loadFile_of_illegal hl (headerBuffer_of_illegal hi)]
    rfl
  have hnb : headerBuffer (streamHeader S) = some ⟨w, h, b, []⟩ := by
    rw [← hw, ← hh]
    exact headerBuffer_of_legal (by rwa [hw]) (by rwa [hh]) (by rwa [hbits])
  rw [show w.toNat * h.toNat * bppBytes b = bufLen ⟨w, h, b, []⟩ from rfl, ← streamHeader_type hl,
    ← streamHeader_orientation hl]
  refine ⟨fun hc => ?_, fun hf ht => ?_, fun hf ht hn => ?_, fun hf ht hn => ⟨?_, fun k => ?_⟩⟩
  · rw [loadFile_of_not_fits hl hnb hc]
    rfl
  · rw [loadFile_of_unsupported hl hnb hf ht]
    rfl
  · rw [loadFile_of_truncated hl hnb hf ht hn]
    rfl
  · rw [loadFile_of_whole hl hnb hf ht hn, upright_eq]
    rfl
  · exact (Memory.readByte_ofBytes 0 k _).trans (if_pos (Nat.zero_le k))

/-! ## The buffer before does not count (R203 (d)) -/

/-- Settles O40: both runs end with the outcome of the one stream, which is computed without the buffer. -/
theorem creadForgetsThePreviousBuffer : Obligations.CreadForgetsThePreviousBuffer := by
  intro s t t' b S hr hs ht ht'
  obtain rfl := Host.Outcome.next.inj ((exec_cread_of_stream hr hs).symm.trans ht)
  obtain rfl := Host.Outcome.next.inj ((exec_cread_of_stream (s := { s with buf := b }) hr hs).symm.trans ht')
  refine ⟨rfl, fun h => ?_⟩
  have hload := eq_ok_of_creadEnd_err h
  rw [hload]
  rfl

/-! ## The orientation (R199) -/

/-- The two bits of the header choose the stored row and column of each pixel (R199). -/
theorem pixelByte_upright (h : Bytes18) {b : Buffer} {i j c : Nat} (hi : i < b.width.toNat) (hj : j < b.height.toNat)
    (hc : c < bppBytes b.bpp) :
    pixelByte (upright h b) i j c =
      pixelByte b (if rightOrigin h then b.width.toNat - 1 - i else i)
        (if topOrigin h then j else b.height.toNat - 1 - j) c := by
  have hcol : b.width.toNat - 1 - i < b.width.toNat := by omega
  unfold upright
  cases topOrigin h <;> cases rightOrigin h
  · exact pixelByte_flipV hi hj hc
  · exact (pixelByte_flipH (b := flipV b) hi hj hc).trans (pixelByte_flipV hcol hj hc)
  · rfl
  · exact pixelByte_flipH hi hj hc

/-- The bytes of the stored pixels are those of the stream after the header (R98, R198). -/
theorem pixelByte_stored {b : Buffer} {S : List Byte} {i j c : Nat} (hi : i < b.width.toNat)
    (hj : j < b.height.toNat) (hc : c < bppBytes b.bpp) :
    pixelByte (stored S b) i j c = S.getD (18 + (pixelOff b i j + c)) 0 := by
  have hk : pixelOff b i j + c < bufLen b := pixelOff_lt hi hj hc
  refine (Memory.readByte_ofBytes 0 (pixelOff b i j + c) _).trans ?_
  rw [if_pos (Nat.zero_le _), Nat.sub_zero, List.getD_eq_getElem?_getD, List.getElem?_take_of_lt hk,
    List.getElem?_drop, ← List.getD_eq_getElem?_getD]
  rfl

/-- Settles O38: the loaded payload's pixels are bytes of the stream, which `upright` moves. -/
theorem creadNormalisesTheOrientation : Obligations.CreadNormalisesTheOrientation := by
  intro s t S i j c hr hs ht herr
  obtain rfl := Host.Outcome.next.inj ((exec_cread_of_stream hr hs).symm.trans ht)
  obtain ⟨hl, nb, hbuf⟩ := loadFile_eq_ok (eq_ok_of_creadEnd_err herr)
  simp only [hbuf, upright_width, upright_height, upright_bpp, stored_width, stored_height, stored_bpp]
  intro hi hj hc
  rw [pixelByte_upright (b := stored S nb) _ hi hj hc, pixelByte_stored ?_ ?_ hc, ← streamHeader_orientation hl]
  · rfl
  · rw [stored_width]; split_ifs <;> omega
  · rw [stored_height]; split_ifs <;> omega

end Sys2Proof.Machine
end

