-- ==== Sys2Proof/Proofs/RoundTrip.lean ====
section
/-! PROOFS. CREAD of the file that CWRITE writes (43_codec_read R203 (a), 90_conflicts C2): its header is the one that
was written, which asks for the buffer's shape, and its payload is the buffer's bytes. -/

namespace Sys2Proof.Machine

/-! ## The file as a stream -/

/-- The header of a stream that starts with the bytes of a header is that header. -/
theorem streamHeader_headerBytes_append (h : Bytes18) (R : List Byte) : streamHeader (headerBytes h ++ R) = h := by
  rw [streamHeader, List.take_left' (length_headerBytes h), headerBytes, leNat_leBytes,
    Nat.mod_eq_of_lt h.isLt, BitVec.ofNat_toNat, BitVec.setWidth_eq]

theorem streamHeader_fileBytes (p : Params) (b : Buffer) (vf : Byte) :
    streamHeader (fileBytes p b vf) = writtenHeader b vf := by
  rw [fileBytes, List.append_assoc, streamHeader_headerBytes_append]

/-- The file holds the pixel bytes after its header (R172). -/
theorem payload_fileBytes (p : Params) (b : Buffer) (vf : Byte) :
    ((fileBytes p b vf).drop 18).take (bufLen b) = payloadBytes b := by
  rw [fileBytes, List.append_assoc, List.drop_left' (length_headerBytes _), List.take_left' (length_payloadBytes b)]

/-! ## The header is accepted -/

/-- A dimension within its bound is positive in two's complement where it is not zero (R24, R194). -/
theorem toInt_pos {d : Half} (h : 0 < d.toNat) (hd : d.toNat ≤ Config.dimMax) : 0 < d.toInt := by
  rw [Config.dimMax] at hd
  rw [BitVec.toInt_eq_toNat_of_lt (by omega)]
  exact Int.natCast_pos.mpr h

/-- Validation accepts the header CWRITE writes of a buffer with a pixel, and asks for the buffer's shape. -/
theorem headerBuffer_writtenHeader {b : Buffer} (vf : Byte) (hw : 0 < b.width.toInt) (hh : 0 < b.height.toInt) :
    headerBuffer (writtenHeader b vf) = some { b with pix := [] } := by
  have hbits : (BitVec.ofNat 8 (8 * bppBytes b.bpp)).toNat = 8 * bppBytes b.bpp := by cases b.bpp <;> rfl
  have hlegal := headerBuffer_of_legal (h := writtenHeader b vf) (b := b.bpp)
  rw [writtenHeader, headerFields_headerWord] at hlegal
  exact hlegal hw hh hbits

/-- CWRITE writes an accepted data type (R93, R197). -/
theorem headerType_writtenHeader (b : Buffer) (vf : Byte) : (headerType (writtenHeader b vf)).toNat ∈ [2, 3] := by
  rw [writtenHeader, headerType_headerWord]
  cases b.bpp <;> decide

/-- Flag 0 declares the stored rows to be top first, flag 1 bottom first (R171, R199). -/
theorem upright_writtenHeader (b c : Buffer) {vf : Byte} (hv : vf = 0 ∨ vf = 1) :
    upright (writtenHeader b vf) c = if vf = 0 then c else flipV c := by
  rw [upright, topOrigin, rightOrigin, writtenHeader, headerFields_headerWord]
  rcases hv with rfl | rfl <;> simp

/-! ## The bytes are the buffer's -/

/-- An offset that is not listed reads as unlisted. -/
theorem Memory.readByte_of_unlisted {m : Memory} {k : Nat} (h : ∀ c ∈ m, c.1 ≠ k) :
    Memory.readByte m k = Config.unlistedByte := by
  induction m with
  | nil => rfl
  | cons c m ih =>
    rw [List.forall_mem_cons] at h
    exact (if_neg h.1).trans (ih h.2)

/-- The bytes of a buffer, laid out from offset 0, are its pixel memory (R24 (a)). -/
theorem ofBytes_payloadBytes {b : Buffer} (hm : Memory.wf b.pix) (hlt : ∀ c ∈ b.pix, c.1 < bufLen b) :
    Memory.ofBytes 0 (payloadBytes b) = b.pix := by
  refine Memory.ext_of_wf (Memory.wf_ofBytes _ _) hm fun k => ?_
  rw [Memory.readByte_ofBytes, if_pos (Nat.zero_le k), Nat.sub_zero]
  rcases Nat.lt_or_ge k (bufLen b) with hk | hk
  · exact (Memory.getD_readBytes _ _ _ _ hk).trans (by rw [Nat.zero_add])
  · rw [List.getD_eq_default _ _ ((length_payloadBytes b).trans_le hk),
      Memory.readByte_of_unlisted fun c hc => ((hlt c hc).trans_le hk).ne]

/-- The file stores the whole buffer. -/
theorem stored_fileBytes (p : Params) {b : Buffer} (vf : Byte) (hm : Memory.wf b.pix)
    (hlt : ∀ c ∈ b.pix, c.1 < bufLen b) : stored (fileBytes p b vf) { b with pix := [] } = b := by
  have hpix : Memory.ofBytes 0 (((fileBytes p b vf).drop 18).take (bufLen b)) = b.pix := by
    rw [payload_fileBytes, ofBytes_payloadBytes hm hlt]
  exact congrArg (fun m => { b with pix := m }) hpix

/-! ## The round trip -/

/-- CREAD of the file of a well-formed buffer with a pixel loads it as the flag declares it. -/
theorem loadFile_fileBytes {p : Params} {b : Buffer} {vf : Byte} (hb : Buffer.Wf p b) (hw : 0 < b.width.toNat)
    (hh : 0 < b.height.toNat) (hv : vf = 0 ∨ vf = 1) :
    loadFile p (fileBytes p b vf) = .ok (if vf = 0 then b else flipV b) := by
  obtain ⟨hm, hlt, hwmax, hhmax, hf⟩ := hb
  have hlen := length_fileBytes p b vf
  have hn : 18 + bufLen b ≤ (fileBytes p b vf).length := by omega
  have hheader := streamHeader_fileBytes p b vf
  have hnb := headerBuffer_writtenHeader vf (toInt_pos hw hwmax) (toInt_pos hh hhmax)
  have ht := headerType_writtenHeader b vf
  rw [← hheader] at hnb ht
  rw [loadFile_of_whole (by omega) hnb hf ht hn, hheader, upright_writtenHeader b _ hv, stored_fileBytes p vf hm hlt]

/-- Settles O41: the file CWRITE hands over is whole, and `loadFile` of it is the buffer or its mirror. -/
theorem readUndoesWrite : Obligations.ReadUndoesWrite := by
  intro s vf hr hb hw hh hv hs
  have hwrite := exec_cwrite_of_takes hv hs
  rw [cwriteEnd_none hr] at hwrite
  refine ⟨fileBytes s.params s.buf vf, _, _, hwrite, rfl, rfl, exec_cread_of_stream hr rfl, ?_⟩
  rw [loadFile_fileBytes hb hw hh hv]
  exact ⟨rfl, rfl⟩

end Sys2Proof.Machine
end

