-- ==== Sys2Proof/Proofs/Failures.lean ====
section
/-! PROOFS. Failures (60_exceptions R230, R231, R240, R247): the codes of the table, the opcode that is none of the
twelve, and that every instruction fails from a state whose buffer it has not written. -/

namespace Sys2Proof.Machine

/-! ## The codes (R231) -/

/-- The error names in the order of R231's table. -/
def errNames : List ErrCode :=
  [.streamOpenFailure, .headerReadFailure, .headerWriteFailure, .invalidHeaderValues, .unsupportedDataType,
    .payloadTruncated, .payloadWriteFailure, .footerWriteFailure, .illegalCommand, .illegalOperand, .rawRange,
    .capacityExceeded]

theorem mem_errNames (e : ErrCode) : e ∈ errNames := by cases e <;> decide

/-- No two error names share a code, since no code stands twice in the table's column. -/
theorem errCode_injective : Function.Injective errCode := fun e e' h =>
  List.inj_on_of_nodup_map (show (errNames.map errCode).Nodup by decide) (mem_errNames e) (mem_errNames e') h

/-- Settles O48: the column of the table, and what follows from it. -/
theorem errorCodesAreTheTables : Obligations.ErrorCodesAreTheTables :=
  ⟨rfl, fun _ _ h => errCode_injective h, errCode_ne_zero⟩

/-! ## An illegal opcode (R240) -/

/-- A descriptor whose opcode is none of the twelve decodes to the error that names it (R87). -/
theorem decodeDescriptor_of_unallocated {d : Desc}
    (h : descOp d ∉ ([0x01, 0x02, 0x03, 0x04, 0x05, 0x06, 0x07, 0x08, 0x09, 0x0A, 0x10, 0x11] : List Byte)) :
    decodeDescriptor d = .error (.illegalCommand (descOp d).toNat) := by
  rw [← List.mem_map_of_injective (f := BitVec.toNat) fun _ _ => BitVec.eq_of_toNat_eq] at h
  unfold decodeDescriptor
  split
  case h_13 => rfl
  all_goals next hop => exact absurd (by rw [hop]; decide) h

/-- Settles O9: the port takes the request, and its descriptor does not decode. -/
theorem unallocatedOpcodesRaiseIllegalCommand : Obligations.UnallocatedOpcodesRaiseIllegalCommand := by
  intro s r rest hs hpin hport hop
  have hf : fetch s = .settle (raise .illegalCommand (accept r rest s)) := by
    simp only [fetch, hpin, hs.1, fetchCommand, hport, decodeDescriptor_of_unallocated hop, Bool.false_eq_true,
      if_false]
  rw [step, hf, raise_eq, finish_of_atRest _ (atRest_accept hs)]
  rfl

/-! ## How an instruction ends (R230) -/

/-- How an instruction ends when it can fail only from a state with `P`. -/
inductive Ends (P : State → Prop) : State → Prop where
  | success (r : Resp) (u : State) (hr : r.err = 0) : Ends P (finish r u)
  | failure (e : ErrCode) (u : State) (hu : P u) : Ends P (finish (respError e) u)
  | waits (u : State) (hu : u.phase ≠ .idle) : Ends P u

/-- An instruction that has ended with an error has failed. -/
theorem Ends.failed {P : State → Prop} {t : State} (h : Ends P t) (hp : t.phase = .idle) (he : t.resp.err ≠ 0) :
    ∃ e u, P u ∧ t = finish (respError e) u := by
  cases h with
  | success r u hr => exact absurd hr he
  | failure e u hu => exact ⟨e, u, hu, rfl⟩
  | waits u hu => exact absurd hp hu

/-- The state `u` of a codec command in progress that began in `s` and has emitted `out`: the streams' registers,
`NB`, `POS` and `HDR` may differ, the buffer may not. -/
def InProgress (s : State) (out : Option (List Byte)) (u : State) : Prop :=
  ∃ src dst nb p h, u = { s with srcOpen := src, dstOpen := dst, nb := nb, out := out, pos := p, hdr := h }

/-- The states an instruction can fail in: a codec command may be in progress, and CWRITE alone has emitted bytes. -/
def FailsIn : Instr → State → State → Prop
  | .cwrite _, s, u => ∃ out, InProgress s out u
  | .cread, s, u | .fileHdrRawTruecolor _, s, u | .fileHdrRawGrayscale _, s, u => InProgress s s.out u
  | _, s, u => u = s

section Phases
variable {s u : State} {out : Option (List Byte)} (h : InProgress s out u)
include h

/-! ### CREAD -/

theorem creadPayload_ends {nb : Buffer} (hn : u.nb = some nb) : Ends (InProgress s out) (creadPayload u) := by
  obtain ⟨-, he⟩ | ⟨-, he⟩ | ⟨_, -, -, he⟩ := creadPayload_cases hn <;> rw [he]
  · exact .failure _ _ h
  · exact .waits _ nofun
  · exact .success _ _ rfl

theorem creadValidate_ends : Ends (InProgress s out) (creadValidate u) := by
  have hnb : ∀ nb, InProgress s out { u with nb := some nb } := by
    obtain ⟨_, _, _, _, _, rfl⟩ := h
    exact fun _ => ⟨_, _, _, _, _, rfl⟩
  obtain ⟨-, he⟩ | ⟨nb, -, ⟨-, he⟩ | ⟨-, -, he⟩ | ⟨-, -, he⟩⟩ := creadValidate_cases u <;> rw [he]
  · exact .failure _ _ h
  · exact .failure _ _ h
  · exact .failure _ _ (hnb nb)
  · exact creadPayload_ends (hnb nb) rfl

theorem creadHeaderArrived_ends (hd : Bytes18) : Ends (InProgress s out) (creadHeaderArrived hd u) := by
  obtain ⟨_, _, _, _, _, rfl⟩ := h
  exact creadValidate_ends ⟨_, _, _, _, _, rfl⟩

theorem creadHeader_ends : Ends (InProgress s out) (creadHeader u) := by
  unfold creadHeader
  split
  · exact .failure _ _ h
  · exact .waits _ nofun
  · exact creadHeaderArrived_ends h _

/-! ### CWRITE -/

theorem WriteEnds.ends {t : State} (hw : WriteEnds u t) : Ends (fun v => ∃ o, InProgress s o v) t := by
  obtain ⟨_, _, _, _, _, rfl⟩ := h
  cases hw with
  | success o p => exact .success _ _ rfl
  | failure e o p => exact .failure e _ ⟨o, _, _, _, _, _, rfl⟩
  | waits ph o p hph => exact .waits _ (by rcases hph with rfl | rfl | rfl <;> nofun)

end Phases

theorem inProgress_self (s : State) : InProgress s s.out s := ⟨_, _, _, _, _, rfl⟩

theorem creadOpen_ends (s : State) : Ends (InProgress s s.out) (creadOpen s) := by
  unfold creadOpen
  split
  · exact .failure _ _ (inProgress_self s)
  · exact creadHeader_ends ⟨_, _, _, _, _, rfl⟩

theorem cwriteOpen_ends (vf : Byte) (s : State) :
    Ends (fun v => ∃ o, InProgress s o v) (cwriteOpen vf s) := by
  unfold cwriteOpen
  split
  · exact .failure _ _ ⟨_, inProgress_self s⟩
  · exact (cwriteHeader_ends _).ends ⟨_, _, _, _, _, rfl⟩

/-- Every instruction succeeds, waits, or fails in one of its states; a buffer command fails at once. -/
theorem exec_ends (i : Instr) (s : State) : ∃ t, exec i s = .next t ∧ Ends (FailsIn i s) t := by
  cases i with
  | get | fliph | flipv | qw | qh | qbpp => exact ⟨_, rfl, .success _ _ rfl⟩
  | construct w h m =>
    refine ⟨_, rfl, ?_⟩
    split
    · exact .failure _ _ rfl
    · dsimp only
      split
      · exact .success _ _ rfl
      · exact .failure _ _ rfl
  | set x y n c0 c1 c2 c3 =>
    refine ⟨_, rfl, ?_⟩
    split
    · exact .failure _ _ rfl
    · exact .success _ _ rfl
  | rawrd off | rawwr off b =>
    refine ⟨_, rfl, ?_⟩
    split
    · exact .success _ _ rfl
    · exact .failure _ _ rfl
  | cwrite vf =>
    refine ⟨_, rfl, ?_⟩
    split
    · exact cwriteOpen_ends vf s
    · exact .failure _ _ ⟨_, inProgress_self s⟩
  | cread => exact ⟨_, rfl, creadOpen_ends s⟩
  | fileHdrRawTruecolor f | fileHdrRawGrayscale f => exact ⟨_, rfl, creadHeaderArrived_ends (inProgress_self s) _⟩

/-! ## What a failure changes (R247) -/

/-- The end of a command that began at rest gives back all but `RESP`, the outputs, `POS`, `HDR` and the draws. -/
theorem InProgress.finish_eq {s u : State} {out : Option (List Byte)} (h : InProgress s out u) (hs : s.AtRest)
    (r : Resp) : finish r u = { s with
      resp := r, outs := (finish r u).outs, pos := (finish r u).pos, hdr := (finish r u).hdr
      draws := (finish r u).draws } := by
  obtain ⟨_, _, _, _, _, rfl⟩ := h
  obtain ⟨hphase, hsrc, hdst, hnb, hout⟩ := hs
  simp [finish, hphase, hsrc, hdst, hnb, hout]

/-- A command that began at rest and has emitted nothing hands nothing over. -/
theorem InProgress.finish_outs_eq {s u : State} (h : InProgress s s.out u) (hs : s.AtRest) (r : Resp) :
    (finish r u).outs = s.outs := by
  obtain ⟨_, _, _, _, _, rfl⟩ := h
  obtain ⟨-, -, -, -, hout⟩ := hs
  simp [hout]

/-- Settles O50: what holds of the states each instruction can fail in, brought to rest by the end of the command. -/
theorem failuresChangeRespAndStreamTracesAlone : Obligations.FailuresChangeRespAndStreamTracesAlone := by
  intro i s t hs ht hp herr
  obtain ⟨t', ht', hends⟩ := exec_ends i s
  obtain rfl := Host.Outcome.next.inj (ht'.symm.trans ht)
  obtain ⟨e, u, hu, rfl⟩ := hends.failed hp herr
  cases i with
  | cwrite vf =>
    obtain ⟨_, hu⟩ := hu
    exact ⟨⟨e, hu.finish_eq hs _⟩, fun h => absurd rfl (h vf), fun h => absurd rfl (h vf)⟩
  | cread => exact ⟨⟨e, hu.finish_eq hs _⟩, fun _ => hu.finish_outs_eq hs _, fun _ h => absurd rfl h⟩
  | fileHdrRawTruecolor f =>
    exact ⟨⟨e, hu.finish_eq hs _⟩, fun _ => hu.finish_outs_eq hs _, fun _ _ h => absurd rfl (h f)⟩
  | fileHdrRawGrayscale f =>
    exact ⟨⟨e, hu.finish_eq hs _⟩, fun _ => hu.finish_outs_eq hs _, fun _ _ _ h => absurd rfl (h f)⟩
  | _ =>
    obtain rfl : u = s := hu
    rw [finish_of_atRest _ hs]
    exact ⟨⟨e, rfl⟩, fun _ => rfl, fun _ _ _ _ => ⟨rfl, rfl, rfl⟩⟩

end Sys2Proof.Machine
end

