-- ==== Sys2Proof/Proofs/ResetAndWaiting.lean ====
section
/-! PROOFS. Reset, the command port and waiting commands (70_step R260, R261, R264, R267): what a step does by the reset
input, by the oldest request and by the phase, and that a command that has not ended is as its stream left it. -/

namespace Sys2Proof.Machine

/-! ## Reset (R260, R261) -/

/-- A step with the reset input raised is the reset event, whatever the machine does. -/
theorem step_of_resetPin {s : State} (h : s.resetPin = true) : step s = .next (resetEvent s) := by
  rw [step, fetch, if_pos h]

/-- Settles O4: the step is the reset event, which is these updates of the reset state. -/
theorem resetInputRestoresTheResetState : Obligations.ResetInputRestoresTheResetState :=
  fun _ h => step_of_resetPin h

/-- A buffer without columns has no bytes (R25). -/
theorem bufLen_of_width_zero {b : Buffer} (h : b.width = 0) : bufLen b = 0 := by
  simp [bufLen, h]

/-- Settles O1: the values of R261 as the reset state has them, and the buffer's part of its invariant. -/
theorem resetLeavesTheEmptyBuffer : Obligations.ResetLeavesTheEmptyBuffer :=
  ⟨⟨Params.default, rfl⟩, fun p b =>
    have hwf : Buffer.Wf p (State.resetWith p b).buf := (resetWith_inv p b).1
    ⟨rfl, rfl, rfl, bufLen_of_width_zero rfl, rfl, (by decide : respWord {} = 0), rfl, rfl, rfl, rfl, hwf⟩⟩

/-! ## What stays of a state while a command runs -/

/-- What no command writes before it ends: the requests not yet accepted, the reset input, `RESP` and the buffer. -/
def kept (s : State) : List Request × Bool × Resp × Buffer := (s.port, s.resetPin, s.resp, s.buf)

/-- A command in progress that has kept `k` either ends, no request accepted, or goes on with all of `k` kept. -/
inductive Keeps (k : List Request × Bool × Resp × Buffer) : State → Prop where
  | ends (r : Resp) (u : State) (hport : u.port = k.1) : Keeps k (finish r u)
  | goesOn (u : State) (hkept : kept u = k) : Keeps k u

/-- Whether it has ended or not, a command has accepted no further request (R264). -/
theorem Keeps.port_eq {s t : State} (h : Keeps (kept s) t) : t.port = s.port := by
  cases h with
  | ends r u hport => exact hport
  | goesOn u hkept => exact congrArg Prod.fst hkept

/-- A command that has not ended has written neither `RESP` nor the buffer. -/
theorem Keeps.kept_eq {s t : State} (h : Keeps (kept s) t) (hp : t.phase ≠ .idle) : kept t = kept s := by
  cases h with
  | ends r u hport => exact absurd rfl hp
  | goesOn u hkept => exact hkept

section Phases
variable {s : State} {k : List Request × Bool × Resp × Buffer} (h : kept s = k)
include h

theorem finish_keeps (r : Resp) : Keeps k (finish r s) := .ends r s (congrArg Prod.fst h)

/-! ### CREAD -/

theorem creadCommit_keeps : Keeps k (creadCommit s) := by
  unfold creadCommit
  split
  · exact .goesOn s h
  · exact .ends _ _ (congrArg Prod.fst h)

theorem creadOrientH_keeps : Keeps k (creadOrientH s) := creadCommit_keeps h

theorem creadOrientV_keeps : Keeps k (creadOrientV s) := creadOrientH_keeps h

theorem creadPayload_keeps : Keeps k (creadPayload s) := by
  unfold creadPayload
  split
  · exact .goesOn s h
  · split
    · exact finish_keeps h _
    · exact .goesOn _ h
    · exact creadOrientV_keeps h

theorem creadDispatch_keeps : Keeps k (creadDispatch s) := by
  unfold creadDispatch
  split
  · exact creadPayload_keeps h
  · exact finish_keeps h _

theorem creadValidate_keeps : Keeps k (creadValidate s) := by
  obtain ⟨-, he⟩ | ⟨nb, -, ⟨-, he⟩ | ⟨-, -, he⟩ | ⟨-, -, he⟩⟩ := creadValidate_cases s <;> rw [he]
  · exact finish_keeps h _
  · exact finish_keeps h _
  · exact finish_keeps (s := { s with nb := some nb }) h _
  · exact creadPayload_keeps h

theorem creadHeaderArrived_keeps (hd : Bytes18) : Keeps k (creadHeaderArrived hd s) := creadValidate_keeps h

theorem creadHeader_keeps : Keeps k (creadHeader s) := by
  unfold creadHeader
  split
  · exact finish_keeps h _
  · exact .goesOn _ h
  · exact creadHeaderArrived_keeps h _

theorem creadOpen_keeps : Keeps k (creadOpen s) := by
  unfold creadOpen
  split
  · exact finish_keeps h _
  · exact creadHeader_keeps h

/-! ### CWRITE -/

theorem WriteEnds.keeps {t : State} (hw : WriteEnds s t) : Keeps k t := by
  cases hw with
  | success o p => exact finish_keeps (s := { s with out := o, pos := p }) h _
  | failure e o p => exact finish_keeps (s := { s with out := o, pos := p }) h _
  | waits ph o p => exact .goesOn _ h

theorem cwriteOpen_keeps (vf : Byte) : Keeps k (cwriteOpen vf s) := by
  unfold cwriteOpen
  split
  · exact finish_keeps h _
  · refine WriteEnds.keeps ?_ (cwriteHeader_ends _)
    exact h

/-- A command resumed, in any phase, keeps what a running command keeps. -/
theorem resume_keeps : Keeps k (resume s) := by
  unfold resume
  split
  · exact .goesOn s h
  · exact .goesOn s h
  · exact .goesOn s h
  · exact (cwriteHeader_ends s).keeps h
  · exact (cwritePayload_ends s).keeps h
  · exact (cwriteFooter_ends s).keeps h
  · exact creadOpen_keeps h
  · exact creadHeader_keeps h
  · exact creadValidate_keeps h
  · exact creadValidate_keeps h
  · exact creadDispatch_keeps h
  · exact creadPayload_keeps h
  · exact creadOrientV_keeps h
  · exact creadOrientH_keeps h
  · exact creadCommit_keeps h

end Phases

/-! ## What an instruction runs -/

/-- Every instruction ends at once, no request accepted, or runs a phase that asks a stream: CWRITE and CREAD open
theirs, a header's row has its header arrived. -/
theorem exec_cases (i : Instr) (s : State) : ∃ t, exec i s = .next t ∧
    ((∃ r u, t = finish r u ∧ u.port = s.port) ∨ (∃ vf, t = cwriteOpen vf s) ∨ t = creadOpen s ∨
      ∃ h, t = creadHeaderArrived h s) := by
  cases i with
  | get | fliph | flipv | qw | qh | qbpp => exact ⟨_, rfl, .inl ⟨_, _, rfl, rfl⟩⟩
  | construct w h m =>
    refine ⟨_, rfl, .inl ?_⟩
    split
    · exact ⟨_, _, rfl, rfl⟩
    · dsimp only
      split <;> exact ⟨_, _, rfl, rfl⟩
  | set x y n c0 c1 c2 c3 =>
    refine ⟨_, rfl, .inl ?_⟩
    split
    · exact ⟨_, _, rfl, rfl⟩
    · exact ⟨_, _, rfl, by split <;> rfl⟩
  | rawrd off | rawwr off b =>
    refine ⟨_, rfl, .inl ?_⟩
    split <;> exact ⟨_, _, rfl, rfl⟩
  | cwrite vf =>
    refine ⟨_, rfl, ?_⟩
    split
    · exact .inr (.inl ⟨vf, rfl⟩)
    · exact .inl ⟨_, _, rfl, rfl⟩
  | cread => exact ⟨_, rfl, .inr (.inr (.inl rfl))⟩
  | fileHdrRawTruecolor f | fileHdrRawGrayscale f => exact ⟨_, rfl, .inr (.inr (.inr ⟨_, rfl⟩))⟩

/-- An instruction keeps what a running command keeps. -/
theorem exec_keeps {i : Instr} {s t : State} (ht : exec i s = .next t) : Keeps (kept s) t := by
  obtain ⟨t', ht', hcases⟩ := exec_cases i s
  obtain rfl := Host.Outcome.next.inj (ht'.symm.trans ht)
  obtain ⟨r, u, rfl, hu⟩ | ⟨vf, rfl⟩ | rfl | ⟨h, rfl⟩ := hcases
  · exact .ends r u hu
  · exact cwriteOpen_keeps rfl vf
  · exact creadOpen_keeps rfl
  · exact creadHeaderArrived_keeps rfl h

/-! ## The command port (R260, R264) -/

theorem fetch_of_idle {s : State} (hpin : s.resetPin = false) (hp : s.phase = .idle) : fetch s = fetchCommand s := by
  rw [fetch, if_neg (by simp [hpin]), hp]

/-- In `IDLE` without a request the machine waits (R260). -/
theorem step_of_no_request {s : State} (hpin : s.resetPin = false) (hp : s.phase = .idle) (hport : s.port = []) :
    step s = .next s := by
  rw [step, fetch_of_idle hpin hp, fetchCommand, hport]

/-- In `IDLE` the oldest request is accepted, and its command is run or is illegal (R120, R240). -/
theorem step_of_request {s : State} {r : Request} {rest : List Request} (hpin : s.resetPin = false)
    (hp : s.phase = .idle) (hport : s.port = r :: rest) :
    (∃ i, step s = exec i (accept r rest s)) ∨ step s = .next (raise .illegalCommand (accept r rest s)) := by
  rw [step, fetch_of_idle hpin hp, fetchCommand, hport]
  cases hd : decodeDescriptor r.desc with
  | ok i => exact .inl ⟨i, by simp only [hd]⟩
  | error e => exact .inr (by simp only [hd])

/-- Settles O12: the port is empty. -/
theorem idleWithoutRequestWaits : Obligations.IdleWithoutRequestWaits :=
  fun _ => step_of_no_request

/-- Settles O13: a command in progress accepts no request; in `IDLE` the port is empty, or its head alone is accepted
before the command runs. -/
theorem portAcceptsOneCommandAtATime : Obligations.PortAcceptsOneCommandAtATime := by
  intro s t hpin ht
  refine ⟨fun hp => ?_, fun hp => ?_⟩
  · obtain rfl := Host.Outcome.next.inj ((step_of_inProgress hpin hp).symm.trans ht)
    exact (resume_keeps rfl).port_eq
  · cases hport : s.port with
    | nil =>
      obtain rfl := Host.Outcome.next.inj ((step_of_no_request hpin hp hport).symm.trans ht)
      exact hport
    | cons r rest =>
      obtain ⟨i, he⟩ | he := step_of_request hpin hp hport
      · exact (exec_keeps (he.symm.trans ht)).port_eq
      · obtain rfl := Host.Outcome.next.inj (he.symm.trans ht)
        rfl

/-! ## A command that waits (R267, log 9) -/

/-- A write that waits has brought the sink to the bytes it takes, or found it there, so it waits again and nothing
more is taken (R59). -/
theorem dstWrite_of_waits {start : Nat} {v : List Byte} {s t : State} (h : dstWrite start v s = (.waits, t))
    (ph : Phase) : ∃ o p, t = { s with out := o, pos := p } ∧
      dstWrite start v { t with phase := ph } = (.waits, { t with phase := ph }) := by
  unfold dstWrite at h
  dsimp only at h
  split at h
  · cases h
  · cases h
  · split at h <;> cases h
  · next n hs =>
    split at h
    · cases h
    · next hlt =>
      obtain rfl := (Prod.mk.inj h).2
      refine ⟨_, _, rfl, ?_⟩
      have htaken : n - (s.pos + (n - s.pos)) = 0 := by omega
      have hmore : ¬s.pos + (n - s.pos) + (v.length - (s.pos + (n - s.pos) - start)) ≤ n := by
        rw [List.length_drop] at hlt
        omega
      simp [dstWrite, sinkTake, hs, htaken, hmore, Function.comp_def]

section Resume
variable (s : State)

/-- A command that has ended is not resumed. -/
theorem resume_finish (r : Resp) : resume (finish r s) = finish r s := rfl

/-! ### CREAD -/

theorem resume_creadPayload {nb : Buffer} (hn : s.nb = some nb) : resume (creadPayload s) = creadPayload s := by
  obtain ⟨-, he⟩ | ⟨hr, he⟩ | ⟨_, -, -, he⟩ := creadPayload_cases hn
  · rw [he, resume_finish]
  · rw [he]
    simp only [resume, creadPayload, hn, Config.headerLen, hr]
  · rw [he, resume_finish]

theorem resume_creadValidate : resume (creadValidate s) = creadValidate s := by
  obtain ⟨-, he⟩ | ⟨nb, -, ⟨-, he⟩ | ⟨-, -, he⟩ | ⟨-, -, he⟩⟩ := creadValidate_cases s <;> rw [he]
  · exact resume_finish _ _
  · exact resume_finish _ _
  · exact resume_finish _ _
  · exact resume_creadPayload _ rfl

theorem resume_creadHeaderArrived (h : Bytes18) : resume (creadHeaderArrived h s) = creadHeaderArrived h s :=
  resume_creadValidate _

theorem resume_creadHeader : resume (creadHeader s) = creadHeader s := by
  cases hr : srcRead s.source 0 Config.headerLen with
  | short => simp only [creadHeader, hr, raise_eq, resume_finish]
  | waits => simp only [creadHeader, hr, resume]
  | complete bytes => simp only [creadHeader, hr]; exact resume_creadHeaderArrived s _

theorem resume_creadOpen : resume (creadOpen s) = creadOpen s := by
  unfold creadOpen
  split
  · exact resume_finish _ _
  · exact resume_creadHeader _

/-! ### CWRITE -/

theorem resume_cwriteFooter : resume (cwriteFooter s) = cwriteFooter s := by
  rcases hd : dstWrite (Config.headerLen + bufLen s.buf) (footerBytes s.params) s with ⟨_ | _ | _, t⟩
  · simp only [cwriteFooter, hd, complete_eq, resume_finish]
  · simp only [cwriteFooter, hd, raise_eq, resume_finish]
  · obtain ⟨o, p, rfl, hagain⟩ := dstWrite_of_waits hd .wFooter
    simp only [cwriteFooter, hd, resume, hagain]

theorem resume_cwritePayload : resume (cwritePayload s) = cwritePayload s := by
  rcases hd : dstWrite Config.headerLen (payloadBytes s.buf) s with ⟨_ | _ | _, t⟩
  · simp only [cwritePayload, hd]; exact resume_cwriteFooter t
  · simp only [cwritePayload, hd, raise_eq, resume_finish]
  · obtain ⟨o, p, rfl, hagain⟩ := dstWrite_of_waits hd .wPayload
    simp only [cwritePayload, hd, resume, hagain]

theorem resume_cwriteHeader : resume (cwriteHeader s) = cwriteHeader s := by
  rcases hd : dstWrite 0 (headerBytes s.hdr) s with ⟨_ | _ | _, t⟩
  · simp only [cwriteHeader, hd]; exact resume_cwritePayload t
  · simp only [cwriteHeader, hd, raise_eq, resume_finish]
  · obtain ⟨o, p, rfl, hagain⟩ := dstWrite_of_waits hd .wHeader
    simp only [cwriteHeader, hd, resume, hagain]

theorem resume_cwriteOpen (vf : Byte) : resume (cwriteOpen vf s) = cwriteOpen vf s := by
  unfold cwriteOpen
  split
  · exact resume_finish _ _
  · exact resume_cwriteHeader _

end Resume

/-- What an instruction leaves, ended or waiting, is left as it is when it looks at its stream again. -/
theorem resume_exec {i : Instr} {s t : State} (ht : exec i s = .next t) : resume t = t := by
  obtain ⟨t', ht', hcases⟩ := exec_cases i s
  obtain rfl := Host.Outcome.next.inj (ht'.symm.trans ht)
  obtain ⟨r, u, rfl, -⟩ | ⟨vf, rfl⟩ | rfl | ⟨h, rfl⟩ := hcases
  · exact resume_finish u r
  · exact resume_cwriteOpen s vf
  · exact resume_creadOpen s
  · exact resume_creadHeaderArrived s h

/-- Settles O43: a command that has not ended has kept `RESP` and the buffer, and the next step resumes it in vain. -/
theorem waitingCommandsStayUntilReset : Obligations.WaitingCommandsStayUntilReset := by
  intro i s t _ hpin ht hp
  have hk : kept t = kept s := (exec_keeps ht).kept_eq hp
  obtain ⟨-, hpin', hresp, hbuf⟩ : t.port = s.port ∧ t.resetPin = s.resetPin ∧ t.resp = s.resp ∧ t.buf = s.buf := by
    simpa only [kept, Prod.mk.injEq] using hk
  refine ⟨hresp, hbuf, ?_⟩
  rw [step_of_inProgress (hpin'.trans hpin) hp, resume_exec ht]

end Sys2Proof.Machine
end
